-- ==== Sys2Proof/Word.lean ====
section
/-! DEFINITION. The word types: a byte (register, memory cell, operand, opcode number) and a 9-bit stream element. -/

namespace Sys2Proof

/-- An 8-bit pattern: a register, a memory cell, an operand or an opcode number (00_scope.md R9). -/
abbrev Byte := BitVec 8

/-- One unit of the instruction stream: bit 8 is the tag, bits 7:0 the payload (30_encoding.md R60). -/
abbrev Element := BitVec 9

end Sys2Proof
end

