-- ==== Sys2Proof/Syntax.lean ====
section
/-! DEFINITION. The instruction set: registers, the 25 instructions with their form, family and target register, and the
parcels of stream elements that one step consumes. -/

namespace Sys2Proof

/-- The four general registers (10_state.md R20). -/
inductive Reg where
  | a | b | x | y
  deriving DecidableEq, Repr

/-- The register's index in the spec's register file: A = 0, B = 1, X = 2, Y = 3 (10_state.md R20). -/
def Reg.index : Reg → Nat
  | .a => 0
  | .b => 1
  | .x => 2
  | .y => 3

/-- The two instruction forms (30_encoding.md R64): one opcode element, or an opcode element and an operand element. -/
inductive Form where
  | op | opi
  deriving DecidableEq, Repr

/-- The families of the decoder function (30_encoding.md R69). -/
inductive Family where
  | pushi | pushr | popr | add | sub | unimpl | halt | illegal
  deriving DecidableEq, Repr

/-- The 25 instructions, in the order of 30_encoding.md R63. The operand of an OPI instruction is no field: its handler
consumes the next stream element, whatever that element is (30_encoding.md R65, 40_fetch_dispatch.md R83; DESIGN CHOICE, log entry 13). -/
inductive Instr where
  | pushi
  | pusha | pushb | pushx | pushy
  | popa | popb | popx | popy
  | adda | addb | addx | addy
  | suba | subb | subx | suby
  | brz | brn | bro
  | seta | setb | setx | sety
  | halt
  deriving DecidableEq, Repr

/-- The form column of 30_encoding.md R63. BRx and SETx have form OP as implemented (R64). -/
def Instr.form : Instr → Form
  | .pushi => .opi
  | .pusha | .pushb | .pushx | .pushy => .op
  | .popa | .popb | .popx | .popy => .op
  | .adda | .addb | .addx | .addy => .opi
  | .suba | .subb | .subx | .suby => .opi
  | .brz | .brn | .bro => .op
  | .seta | .setb | .setx | .sety => .op
  | .halt => .op

/-- The family that the decoder gives each instruction (30_encoding.md R69). -/
def Instr.family : Instr → Family
  | .pushi => .pushi
  | .pusha | .pushb | .pushx | .pushy => .pushr
  | .popa | .popb | .popx | .popy => .popr
  | .adda | .addb | .addx | .addy => .add
  | .suba | .subb | .subx | .suby => .sub
  | .brz | .brn | .bro => .unimpl
  | .seta | .setb | .setx | .sety => .unimpl
  | .halt => .halt

/-- The target register that the decoder gives each instruction (30_encoding.md R69): none for SETx, whose register
R63 marks as unused. -/
def Instr.target : Instr → Option Reg
  | .pusha | .popa | .adda | .suba => some .a
  | .pushb | .popb | .addb | .subb => some .b
  | .pushx | .popx | .addx | .subx => some .x
  | .pushy | .popy | .addy | .suby => some .y
  | .pushi | .brz | .brn | .bro | .seta | .setb | .setx | .sety | .halt => none

/-- The elements that one step consumes, read off a stream in execution order (30_encoding.md R64 to R67,
40_fetch_dispatch.md R83, R86, R97). In the assembly syntax of 30_encoding.md R72 they are written `.operand v`,
`.opcode n`, `MNEMONIC`, `MNEMONIC imm`, and `MNEMONIC` with its operand missing. -/
inductive Parcel where
  /-- An operand element where an opcode is expected: discarded (R86). -/
  | stray (v : Byte)
  /-- A reserved opcode number 25..255 (R97). -/
  | reserved (n : Byte)
  /-- A one-element instruction. -/
  | op (i : Instr)
  /-- A two-element instruction followed by its operand element. -/
  | opi (i : Instr) (v : Byte)
  /-- A two-element instruction followed by an opcode element, which it consumes as operand 0 (R83). -/
  | opiLost (i : Instr) (n : Byte)
  /-- A two-element instruction at the end of the stream (R83). -/
  | opiShort (i : Instr)
  deriving DecidableEq, Repr

end Sys2Proof
end

