-- ==== Sys2Proof/Config.lean ====
section
/-! DEFINITION. What an implementation fixes: the stream capacity L_MAX, the one open parameter of the spec. -/

namespace Sys2Proof

/-- L_MAX, the stream capacity (00_scope.md R7, 92_eei_decisions.md D4, 93_implementation_defined.md I9): a parameter with
no value in the model, so every claim holds for every capacity. DESIGN CHOICE, log entry 4. -/
opaque Config.lMax : Nat

/-- W_N, the width of the remaining-count register N: ceil(log2(L_MAX + 1)) bits (10_state.md R32). -/
def Config.countWidth : Nat := Nat.clog 2 (Config.lMax + 1)

end Sys2Proof
end

