-- ==== Sys2Proof/WellFormed.lean ====
section
/-! DEFINITION. The checks of well-formedness: of a parcel, of a sequence of parcels, and of a stream offered to
construction. Every value of Instr is an instruction of the table, so Instr itself needs no check. -/

namespace Sys2Proof

/-- A parcel's instruction has the form the parcel gives it (30_encoding.md R64), and a reserved number is one of
25..255 (30_encoding.md R67). -/
def Parcel.wf : Parcel → Bool
  | .stray _ => true
  | .reserved n => decide (25 ≤ n.toNat)
  | .op i => decide (i.form = .op)
  | .opi i _ => decide (i.form = .opi)
  | .opiLost i _ => decide (i.form = .opi)
  | .opiShort i => decide (i.form = .opi)

/-- Only the last parcel of a stream can lack its operand (40_fetch_dispatch.md R83: the stream is empty there). -/
def Parcel.complete : Parcel → Bool
  | .opiShort _ => false
  | .stray _ | .reserved _ | .op _ | .opi _ _ | .opiLost _ _ => true

/-- A sequence of parcels that a stream can be cut into. -/
def Parcel.listWf : List Parcel → Bool
  | [] => true
  | p :: ps => p.wf && (p.complete || ps.isEmpty) && Parcel.listWf ps

/-- A stream that construction accepts: 0 <= L <= L_MAX (10_state.md R30, 93_implementation_defined.md I9). -/
def streamFits (stream : List Element) : Bool := decide (stream.length ≤ Config.lMax)

end Sys2Proof
end

