-- ==== Sys2Proof/Decode.lean ====
section
/-! DEFINITION. The decoder, total on every element, and after it the encoder; the cut of a whole stream into parcels and
its inverse; the host's decodeTableWord. -/

namespace Sys2Proof

/-- Bit 8: true for an opcode element, false for an operand element (30_encoding.md R60). -/
def Element.tag (e : Element) : Bool := e.getLsbD 8

/-- Bits 7:0 (30_encoding.md R60). -/
def Element.payload (e : Element) : Byte := e.extractLsb' 0 8

/-- The instruction of an opcode number (30_encoding.md R63; UNVERIFIED, log entry 9); 25..255 name none (R67). -/
def decodeOpcode (op : Byte) : Option Instr :=
  match op.toNat with
  | 0 => some .pushi
  | 1 => some .pusha
  | 2 => some .pushb
  | 3 => some .pushx
  | 4 => some .pushy
  | 5 => some .popa
  | 6 => some .popb
  | 7 => some .popx
  | 8 => some .popy
  | 9 => some .adda
  | 10 => some .addb
  | 11 => some .addx
  | 12 => some .addy
  | 13 => some .suba
  | 14 => some .subb
  | 15 => some .subx
  | 16 => some .suby
  | 17 => some .brz
  | 18 => some .brn
  | 19 => some .bro
  | 20 => some .seta
  | 21 => some .setb
  | 22 => some .setx
  | 23 => some .sety
  | 24 => some .halt
  | _ => none

/-- What an element is where an opcode is expected. -/
inductive Decoded where
  /-- An operand element, discarded there (40_fetch_dispatch.md R86). -/
  | stray (v : Byte)
  /-- An opcode element with a reserved number (30_encoding.md R67). -/
  | reserved (n : Byte)
  /-- An instruction's opcode element. -/
  | instr (i : Instr)
  deriving DecidableEq, Repr

/-- The decoder: total on all 512 elements (30_encoding.md R60, R63, R67). -/
def decode (e : Element) : Decoded :=
  if e.tag then
    match decodeOpcode e.payload with
    | some i => .instr i
    | none => .reserved e.payload
  else .stray e.payload

/-- The register of an index (10_state.md R20). -/
def regOfIndex : Nat → Option Reg
  | 0 => some .a
  | 1 => some .b
  | 2 => some .x
  | 3 => some .y
  | _ => none

/-- The decoder function of 30_encoding.md R69, by its ranges: the family and the target register of an opcode number. -/
def decodeRanges (op : Byte) : Family × Option Reg :=
  let k := op.toNat
  if k = 0 then (.pushi, none)
  else if k ≤ 4 then (.pushr, regOfIndex (k - 1))
  else if k ≤ 8 then (.popr, regOfIndex (k - 5))
  else if k ≤ 12 then (.add, regOfIndex (k - 9))
  else if k ≤ 16 then (.sub, regOfIndex (k - 13))
  else if k ≤ 23 then (.unimpl, none)
  else if k = 24 then (.halt, none)
  else (.illegal, none)

/-- An operand element: tag 0 and the operand's pattern (30_encoding.md R61). -/
def operandElement (v : Byte) : Element := 0#1 ++ v

/-- An opcode element: tag 1 and the opcode number (30_encoding.md R62). -/
def opcodeElement (n : Byte) : Element := 1#1 ++ n

/-- The number column of 30_encoding.md R63. -/
def opcodeNumber : Instr → Byte
  | .pushi => 0
  | .pusha => 1
  | .pushb => 2
  | .pushx => 3
  | .pushy => 4
  | .popa => 5
  | .popb => 6
  | .popx => 7
  | .popy => 8
  | .adda => 9
  | .addb => 10
  | .addx => 11
  | .addy => 12
  | .suba => 13
  | .subb => 14
  | .subx => 15
  | .suby => 16
  | .brz => 17
  | .brn => 18
  | .bro => 19
  | .seta => 20
  | .setb => 21
  | .setx => 22
  | .sety => 23
  | .halt => 24

/-- The encoder of an instruction's opcode element (30_encoding.md R62, R63). -/
def encode (i : Instr) : Element := opcodeElement (opcodeNumber i)

/-- The elements of a parcel in execution order (30_encoding.md R64, R72). -/
def encodeParcel : Parcel → List Element
  | .stray v => [operandElement v]
  | .reserved n => [opcodeElement n]
  | .op i => [encode i]
  | .opi i v => [encode i, operandElement v]
  | .opiLost i n => [encode i, opcodeElement n]
  | .opiShort i => [encode i]

/-- A sequence of parcels as elements in execution order. -/
def encodeParcels (ps : List Parcel) : List Element := ps.flatMap encodeParcel

/-- A stream in execution order cut into what the steps consume, as the opcode numbers alone decide
(30_encoding.md R65): an OPI opcode takes the next element whatever its tag is. -/
def parcels : List Element → List Parcel
  | [] => []
  | e :: rest =>
    match decode e with
    | .stray v => .stray v :: parcels rest
    | .reserved n => .reserved n :: parcels rest
    | .instr i =>
      match i.form with
      | .op => .op i :: parcels rest
      | .opi =>
        match rest with
        | [] => [.opiShort i]
        | e' :: rest' => (if e'.tag then .opiLost i e'.payload else .opi i e'.payload) :: parcels rest'

/-- The element whose bits are the low nine of `w`, and the element above it: the opcode table numbers bit 0 as the least
significant bit of the first element, and a later element's bits count on from bit 9. -/
def tableElement (w k : Nat) : Element := BitVec.ofNat 9 (w / 2 ^ (9 * k))

/-- The host's question: the instruction the decoder reads from the element whose bits are `w`, cut to `nbits` bits. An
operand element above it (all its bits 0) is consumed by the handler, so it does not change the answer. -/
def decodeTableWord (nbits w : Nat) : Option Instr :=
  match decode (tableElement (w % 2 ^ nbits) 0) with
  | .instr i => some i
  | .stray _ => none
  | .reserved _ => none

end Sys2Proof
end

