-- ==== Sys2Proof/Machine/State.lean ====
section
/-! DEFINITION. The machine's state as plain data (10_state.md), the reasons a step can stop, and the state after reset. -/

namespace Sys2Proof.Machine

/-- The five states of the condition code, one at a time (10_state.md R24). NEGATIVE and CARRY are part of the taxonomy and
never written. -/
inductive CC where
  | default | zero | overflow | negative | carry
  deriving DecidableEq, Repr

/-- RUN (10_state.md R27). -/
inductive RunState where
  | running | halted
  deriving DecidableEq, Repr

/-- HCAUSE, why the core halted (10_state.md R29). -/
inductive HaltCause where
  | none | halt | eos | unimpl | illegal
  deriving DecidableEq, Repr

/-- The memory array as its non-zero cells, addresses strictly rising; an address not listed holds 0, the reset contents
(10_state.md R28). -/
abbrev Memory := List Host.Cell

/-- All the state of the core (10_state.md R31). -/
structure State where
  /-- General register A (R20). -/
  a : Byte
  /-- General register B (R20). -/
  b : Byte
  /-- General register X (R20). -/
  x : Byte
  /-- General register Y (R20). -/
  y : Byte
  /-- The stack pointer, an unsigned index into memory (R23). -/
  sp : Byte
  /-- The condition code (R24). -/
  cc : CC
  /-- The 256-byte memory array (R28). -/
  mem : Memory
  /-- The instruction register, the source's "PC": none, or the opcode number fetched last (R26). -/
  ir : Option Byte
  /-- The run state (R27). -/
  run : RunState
  /-- The halt cause (R29). -/
  hcause : HaltCause
  /-- The stream store S[0..L-1] in stored order: the last element is fetched first (R30). -/
  stream : List Element
  /-- N, the count of elements not yet consumed; the next one is S[N-1] (R30). -/
  n : Nat
  deriving DecidableEq, Repr

/-- The faults of a step. The core itself has no exception (60_exceptions.md R150). -/
inductive Fault where
  /-- Raised by the fetch and by the operand fetch where N > L, so that S[N-1] is no element of the stream. 10_state.md R30
  gives N the range 0..L: no run reaches such a state, and stopping there is safe. DESIGN CHOICE, log entry 5. -/
  | streamOverrun
  deriving DecidableEq, Repr

/-- The refusals. No instruction of the table is refused; the last three are answers of the host interface, not of a step. -/
inductive Refusal where
  /-- An instruction without a meaning yet, raised by exec's arm for it. No arm raises it now. Safe. -/
  | notModelled (mnemonic : String)
  /-- Raised by construct for a stream longer than L_MAX (93_implementation_defined.md I9). Safe. -/
  | streamTooLong
  /-- Raised by reconstruct while RUN = RUNNING, which the spec forbids to the host (70_reset_and_hazards.md R176). Safe. -/
  | constructWhileRunning
  /-- Raised by a host read while RUN = RUNNING, which the spec forbids to the host (70_reset_and_hazards.md R176). Safe. -/
  | readWhileRunning
  deriving DecidableEq, Repr

/-- The machine right after reset (70_reset_and_hazards.md R170), constructed from the empty stream, which R173 makes legal.
DESIGN CHOICE: reset names no program, so L = 0 and N = L = 0; log entry 3. -/
def State.reset : State where
  a := 0
  b := 0
  x := 0
  y := 0
  sp := 255
  cc := .default
  mem := []
  ir := none
  run := .running
  hcause := .none
  stream := []
  n := 0

end Sys2Proof.Machine
end

