-- ==== Sys2Proof/Machine/Ops.lean ====
section
/-! DEFINITION. The named operations over memory, registers and the stream, the signed reading of a byte, and the halt,
which is this core's only exceptional transition: it has no exception to take and none to return from
(60_exceptions.md R150, R154, R155). -/

namespace Sys2Proof.Machine

/-- The outcome of a step or of a meaning. -/
abbrev Result := Host.Outcome State Fault Refusal

/-- The signed integer a pattern denotes, in two's complement (00_scope.md R9; UNVERIFIED, log entry 9). -/
def sint8 (v : Byte) : Int := v.toInt

/-- The pattern of an integer modulo 256 (00_scope.md R9). -/
def bits8 (i : Int) : Byte := BitVec.ofInt 8 i

/-- What a cell that nothing has written reads as: 0, the spec's reset contents (10_state.md R28). -/
def Memory.unlisted : Byte := 0#8

/-- The cell at address `k` of a list of cells. -/
def Memory.lookup : Memory → Nat → Byte
  | [], _ => Memory.unlisted
  | (j, v) :: rest, k => if j = k then v else Memory.lookup rest k

/-- MemRead(addr, 1): the byte in a cell (00_scope.md R11). Every 8-bit address exists (20_memory.md R48). -/
def Memory.read (m : Memory) (addr : Byte) : Byte := Memory.lookup m addr.toNat

/-- The list with cell `k` set to `v`, in canonical form again: a cell that holds what an unlisted one reads as is left out. -/
def Memory.insert : Memory → Nat → Byte → Memory
  | [], k, v => if v = Memory.unlisted then [] else [(k, v)]
  | (j, w) :: rest, k, v =>
    if k < j then (if v = Memory.unlisted then (j, w) :: rest else (k, v) :: (j, w) :: rest)
    else if k = j then (if v = Memory.unlisted then rest else (k, v) :: rest)
    else (j, w) :: Memory.insert rest k v

/-- MemWrite(addr, 1, v): set one cell (00_scope.md R11). -/
def Memory.write (m : Memory) (addr v : Byte) : Memory := Memory.insert m addr.toNat v

/-- The canonical form: addresses strictly rising and within 0..255, no cell listed with the unlisted value. -/
def Memory.wf (m : Memory) : Bool :=
  decide (m.Pairwise (fun p q => p.1 < q.1)) && m.all (fun p => decide (p.1 < 256) && decide (p.2 ≠ Memory.unlisted))

/-- x[r] (00_scope.md R10). No register is hardwired and none aliases another (10_state.md R20). -/
def State.readReg (s : State) : Reg → Byte
  | .a => s.a
  | .b => s.b
  | .x => s.x
  | .y => s.y

/-- x[r] <- v (00_scope.md R10). -/
def State.writeReg (s : State) (r : Reg) (v : Byte) : State :=
  match r with
  | .a => { s with a := v }
  | .b => { s with b := v }
  | .x => { s with x := v }
  | .y => { s with y := v }

/-- CC <- c (10_state.md R24). -/
def State.setCC (s : State) (c : CC) : State := { s with cc := c }

/-- SP <- v (10_state.md R23). -/
def State.setSP (s : State) (v : Byte) : State := { s with sp := v }

/-- MemWrite at an address of the machine's memory. -/
def State.store (s : State) (addr v : Byte) : State := { s with mem := s.mem.write addr v }

/-- MemRead at an address of the machine's memory. -/
def State.load (s : State) (addr : Byte) : Byte := s.mem.read addr

/-- IR <- some(op), the latch of an opcode element (40_fetch_dispatch.md R85). -/
def State.latch (s : State) (op : Byte) : State := { s with ir := some op }

/-- IR <- none, at an empty-stream fetch (40_fetch_dispatch.md R81; UNVERIFIED, log entry 8). -/
def State.clearIR (s : State) : State := { s with ir := none }

/-- halt(cause): RUN <- HALTED; HCAUSE <- cause (00_scope.md R13). -/
def State.haltWith (s : State) (cause : HaltCause) : State := { s with run := .halted, hcause := cause }

/-- S[N-1], the next element to be consumed (00_scope.md R12); used only when N > 0. -/
def State.nextElement (s : State) : Option Element := s.stream[s.n - 1]?

/-- N <- N - 1, the other half of Consume() (00_scope.md R12). -/
def State.advance (s : State) : State := { s with n := s.n - 1 }

/-- The elements not yet consumed, in the order the core consumes them: S[N-1], ..., S[0] (40_fetch_dispatch.md R82). -/
def State.pending (s : State) : List Element := (s.stream.take s.n).reverse

end Sys2Proof.Machine
end

