-- ==== Sys2Proof/Machine/Flags.lean ====
section
/-! DEFINITION. The guards of the add and subtract handlers and the condition code of an accepted result. -/

namespace Sys2Proof.Machine

/-- The add guard, computed in exact integers (41_arithmetic.md R100, 92_eei_decisions.md D6; UNVERIFIED, log entry 6). -/
def addRejected (reg arg : Int) : Bool := decide (127 - reg < arg)

/-- The subtract guard, a signed comparison (41_arithmetic.md R101, 92_eei_decisions.md D8; UNVERIFIED, log entry 6). -/
def subRejected (reg arg : Int) : Bool := decide (reg < arg)

/-- The condition code of a result that is written: the zero test is made on the 8-bit result (41_arithmetic.md R100, R101,
92_eei_decisions.md D7; UNVERIFIED, log entry 6). -/
def resultCC (res : Byte) : CC := if res = 0#8 then .zero else .default

end Sys2Proof.Machine
end

