-- ==== Sys2Proof/Machine/Operands.lean ====
section
/-! DEFINITION. The operand fetch, with its three forms: an operand element, an opcode element, an empty stream. -/

namespace Sys2Proof.Machine

/-- The value of a consumed operand: the signed payload of an operand element, and 0 for an opcode element, which is lost
(40_fetch_dispatch.md R83, 30_encoding.md R66). -/
def operandValue (e : Element) : Int := if e.tag then 0 else sint8 e.payload

/-- FetchOperand() (40_fetch_dispatch.md R83). From an empty stream it yields 0 and consumes nothing
(92_eei_decisions.md D14; UNVERIFIED, log entry 7). N > L is no state of the machine, and faults there
(DESIGN CHOICE, log entry 5). -/
def fetchOperand (s : State) : Host.Outcome (Int × State) Fault Refusal :=
  if s.n = 0 then .next (0, s)
  else
    match s.nextElement with
    | some e => .next (operandValue e, s.advance)
    | none => .fault .streamOverrun

/-- A handler that first fetches its operand (40_fetch_dispatch.md R80: the operand is consumed before the handler's own
test, 60_exceptions.md R153). -/
def withOperand (s : State) (handler : Int → State → State) : Result :=
  match fetchOperand s with
  | .next (arg, s') => .next (handler arg s')
  | .fault f => .fault f
  | .refused r => .refused r

end Sys2Proof.Machine
end

