-- ==== Sys2Proof/Machine/Arithmetic.lean ====
section
/-! DEFINITION. The add and subtract handlers and the eight arithmetic instructions (41_arithmetic.md). -/

namespace Sys2Proof.Machine

/-- CC <- OVERFLOW and the register unchanged: a result that is rejected (41_arithmetic.md R100, R101). -/
def rejectResult (s : State) : State := s.setCC .overflow

/-- Write a result that is not rejected, taken modulo 256, with its condition code (41_arithmetic.md R100, R101). -/
def writeResult (r : Reg) (exact : Int) (s : State) : State :=
  (s.writeReg r (bits8 exact)).setCC (resultCC (bits8 exact))

/-- AddHandler(r) after its operand fetch (41_arithmetic.md R100). -/
def addOperand (r : Reg) (arg : Int) (s : State) : State :=
  if addRejected (sint8 (s.readReg r)) arg then rejectResult s
  else writeResult r (sint8 (s.readReg r) + arg) s

/-- SubHandler(r) after its operand fetch (41_arithmetic.md R101). -/
def subOperand (r : Reg) (arg : Int) (s : State) : State :=
  if subRejected (sint8 (s.readReg r)) arg then rejectResult s
  else writeResult r (sint8 (s.readReg r) - arg) s

/-- AddHandler(r) (41_arithmetic.md R100). -/
def addHandler (r : Reg) (s : State) : Result := withOperand s (addOperand r)

/-- SubHandler(r) (41_arithmetic.md R101). -/
def subHandler (r : Reg) (s : State) : Result := withOperand s (subOperand r)

/-- `ADDA imm` (41_arithmetic.md R102). -/
def execAdda (s : State) : Result := addHandler .a s

/-- `ADDB imm` (41_arithmetic.md R103). -/
def execAddb (s : State) : Result := addHandler .b s

/-- `ADDX imm` (41_arithmetic.md R104). -/
def execAddx (s : State) : Result := addHandler .x s

/-- `ADDY imm` (41_arithmetic.md R105). -/
def execAddy (s : State) : Result := addHandler .y s

/-- `SUBA imm` (41_arithmetic.md R106). -/
def execSuba (s : State) : Result := subHandler .a s

/-- `SUBB imm` (41_arithmetic.md R107). -/
def execSubb (s : State) : Result := subHandler .b s

/-- `SUBX imm` (41_arithmetic.md R108). -/
def execSubx (s : State) : Result := subHandler .x s

/-- `SUBY imm` (41_arithmetic.md R109). -/
def execSuby (s : State) : Result := subHandler .y s

end Sys2Proof.Machine
end

