-- ==== Sys2Proof/Machine/Control.lean ====
section
/-! DEFINITION. The instructions whose meaning lies in dispatch alone: HALT, and the branch and set instructions, which halt
as implemented (40_fetch_dispatch.md R87 to R96). The spec forbids giving the latter any branch or set semantics (R88, R89,
93_implementation_defined.md I4; UNVERIFIED, log entry 10). -/

namespace Sys2Proof.Machine

/-- `HALT` (40_fetch_dispatch.md R87). -/
def execHalt (s : State) : Result := .next (s.haltWith .halt)

/-- `BRZ` (40_fetch_dispatch.md R90): CC is not read and no operand is consumed. -/
def execBrz (s : State) : Result := .next (s.haltWith .unimpl)

/-- `BRN` (40_fetch_dispatch.md R91). -/
def execBrn (s : State) : Result := .next (s.haltWith .unimpl)

/-- `BRO` (40_fetch_dispatch.md R92). -/
def execBro (s : State) : Result := .next (s.haltWith .unimpl)

/-- `SETA` (40_fetch_dispatch.md R93): the register is not written and no operand is consumed. -/
def execSeta (s : State) : Result := .next (s.haltWith .unimpl)

/-- `SETB` (40_fetch_dispatch.md R94). -/
def execSetb (s : State) : Result := .next (s.haltWith .unimpl)

/-- `SETX` (40_fetch_dispatch.md R95). -/
def execSetx (s : State) : Result := .next (s.haltWith .unimpl)

/-- `SETY` (40_fetch_dispatch.md R96). -/
def execSety (s : State) : Result := .next (s.haltWith .unimpl)

end Sys2Proof.Machine
end

