-- ==== Sys2Proof/Machine/Stack.lean ====
section
/-! DEFINITION. The push and pop handlers and the nine stack instructions (42_stack.md). -/

namespace Sys2Proof.Machine

/-- PushHandler(v) (42_stack.md R130): store at SP, then decrement SP; a full stack (SP = 0) drops the value. -/
def pushHandler (v : Byte) (s : State) : State :=
  if s.sp = 0#8 then s else (s.store s.sp v).setSP (s.sp - 1#8)

/-- PopHandler(r) (42_stack.md R131): an empty stack (SP = 255) gives 0 and keeps SP; otherwise increment SP, then load. -/
def popHandler (r : Reg) (s : State) : State :=
  if s.sp = 255#8 then s.writeReg r 0#8
  else (s.setSP (s.sp + 1#8)).writeReg r (s.load (s.sp + 1#8))

/-- `PUSHi imm` (42_stack.md R132): the operand is consumed even when the stack is full. -/
def execPushi (s : State) : Result := withOperand s (fun arg s' => pushHandler (bits8 arg) s')

/-- `PUSHA` (42_stack.md R133). -/
def execPusha (s : State) : Result := .next (pushHandler (s.readReg .a) s)

/-- `PUSHB` (42_stack.md R134). -/
def execPushb (s : State) : Result := .next (pushHandler (s.readReg .b) s)

/-- `PUSHX` (42_stack.md R135). -/
def execPushx (s : State) : Result := .next (pushHandler (s.readReg .x) s)

/-- `PUSHY` (42_stack.md R136). -/
def execPushy (s : State) : Result := .next (pushHandler (s.readReg .y) s)

/-- `POPA` (42_stack.md R137). -/
def execPopa (s : State) : Result := .next (popHandler .a s)

/-- `POPB` (42_stack.md R138). -/
def execPopb (s : State) : Result := .next (popHandler .b s)

/-- `POPX` (42_stack.md R139). -/
def execPopx (s : State) : Result := .next (popHandler .x s)

/-- `POPY` (42_stack.md R140). -/
def execPopy (s : State) : Result := .next (popHandler .y s)

end Sys2Proof.Machine
end

