-- ==== Sys2Proof/Machine/Dispatch.lean ====
section
/-! DEFINITION. The dispatch of an instruction to its meaning (40_fetch_dispatch.md R84): one arm per constructor. -/

namespace Sys2Proof.Machine

def exec (i : Instr) (s : State) : Host.Outcome State Fault Refusal :=
  match i with
  | .pushi => Sys2Proof.Machine.execPushi s
  | .pusha => Sys2Proof.Machine.execPusha s
  | .pushb => Sys2Proof.Machine.execPushb s
  | .pushx => Sys2Proof.Machine.execPushx s
  | .pushy => Sys2Proof.Machine.execPushy s
  | .popa => Sys2Proof.Machine.execPopa s
  | .popb => Sys2Proof.Machine.execPopb s
  | .popx => Sys2Proof.Machine.execPopx s
  | .popy => Sys2Proof.Machine.execPopy s
  | .adda => Sys2Proof.Machine.execAdda s
  | .addb => Sys2Proof.Machine.execAddb s
  | .addx => Sys2Proof.Machine.execAddx s
  | .addy => Sys2Proof.Machine.execAddy s
  | .suba => Sys2Proof.Machine.execSuba s
  | .subb => Sys2Proof.Machine.execSubb s
  | .subx => Sys2Proof.Machine.execSubx s
  | .suby => Sys2Proof.Machine.execSuby s
  | .brz => Sys2Proof.Machine.execBrz s
  | .brn => Sys2Proof.Machine.execBrn s
  | .bro => Sys2Proof.Machine.execBro s
  | .seta => Sys2Proof.Machine.execSeta s
  | .setb => Sys2Proof.Machine.execSetb s
  | .setx => Sys2Proof.Machine.execSetx s
  | .sety => Sys2Proof.Machine.execSety s
  | .halt => Sys2Proof.Machine.execHalt s

end Sys2Proof.Machine
end

