-- ==== Sys2Proof/Machine/Fetch.lean ====
section
/-! DEFINITION. The front half of a step (40_fetch_dispatch.md R80): the run-state test, the fetch, the latch of IR and the
decode, up to the instruction to be dispatched. -/

namespace Sys2Proof.Machine

/-- What the front half of a step leaves to do. -/
inductive Fetched where
  /-- The step ends here, in this state. -/
  | ended (s : State)
  /-- An instruction is dispatched, in this state. -/
  | dispatch (i : Instr) (s : State)
  deriving DecidableEq, Repr

/-- What a consumed element does, with N already decremented: a stray operand is discarded (R86), an opcode number is
latched before dispatch (R85), and a reserved one halts (R97; DESIGN CHOICE, log entry 2). -/
def afterConsume (e : Element) (s : State) : Fetched :=
  match decode e with
  | .stray _ => .ended s
  | .reserved op => .ended ((s.latch op).haltWith .illegal)
  | .instr i => .dispatch i (s.latch e.payload)

/-- The front half of Step() (R80). A halted core changes no state (10_state.md R27; DEDUCED, log entry 1), and an empty stream
halts (R81). N > L is no state of the machine, and faults there (DESIGN CHOICE, log entry 5). -/
def fetch (s : State) : Host.Outcome Fetched Fault Refusal :=
  match s.run with
  | .halted => .next (.ended s)
  | .running =>
    if s.n = 0 then .next (.ended (s.clearIR.haltWith .eos))
    else
      match s.nextElement with
      | some e => .next (afterConsume e s.advance)
      | none => .fault .streamOverrun

/-- The stream with `es` (in execution order) put before the elements still to be consumed, so that the core consumes them
next; and the core running. -/
def State.placeNext (s : State) (es : List Element) : State :=
  { s with
    stream := s.stream.take s.n ++ es.reverse ++ s.stream.drop s.n
    n := (s.stream.take s.n).length + es.length
    run := .running
    hcause := .none }

end Sys2Proof.Machine
end

