-- ==== Sys2Proof/Machine/Step.lean ====
section
/-! DEFINITION. One step of the machine, and the host's placement of one instruction where the next fetch finds it. -/

namespace Sys2Proof.Machine

/-- Step() (40_fetch_dispatch.md R80): fetch, latch and decode, then the dispatched instruction's meaning. -/
def step (s : State) : Host.Outcome State Fault Refusal :=
  match fetch s with
  | .next (.ended s') => .next s'
  | .next (.dispatch i s') => exec i s'
  | .fault f => .fault f
  | .refused r => .refused r

/-- `s` with the instruction whose bits are `w` as the next elements consumed: its opcode element (the low nine bits of `w`
cut to `nbits`) and, after it in execution order, the element of the nine bits above (0 for a table row: operand 0). It
stands for the loading of a program by construction; DESIGN CHOICE, log entry 3. -/
def State.withFetchWord (s : State) (nbits w : Nat) : State :=
  s.placeNext [tableElement (w % 2 ^ nbits) 0, tableElement (w % 2 ^ nbits) 1]

end Sys2Proof.Machine
end

