-- ==== Sys2Proof/Machine/HostPort.lean ====
section
/-! DEFINITION. The host interface of 70_reset_and_hazards.md R175 and R176: construction, the outputs with their codes, and
when the host may use them. What the spec forbids to the host is a refusal (DESIGN CHOICE, log entry 12). -/

namespace Sys2Proof.Machine

/-- The 3-bit code of CC (10_state.md R24). -/
def ccCode : CC → BitVec 3
  | .default => 0
  | .zero => 1
  | .overflow => 2
  | .negative => 3
  | .carry => 4

/-- The code of RUN (10_state.md R27). -/
def runCode : RunState → BitVec 1
  | .running => 0
  | .halted => 1

/-- The 3-bit code of HCAUSE (10_state.md R29). -/
def haltCode : HaltCause → BitVec 3
  | .none => 0
  | .halt => 1
  | .eos => 2
  | .unimpl => 3
  | .illegal => 4

/-- The state that a construction leaves (70_reset_and_hazards.md R170): every piece of state at its reset value, S the
stream supplied and N its length. -/
def constructed (stream : List Element) : State :=
  { State.reset with stream := stream, n := stream.length }

/-- construct(S, L) before the first run: a stream longer than L_MAX is refused (93_implementation_defined.md I9). -/
def construct (stream : List Element) : Result :=
  if streamFits stream then .next (constructed stream) else .refused .streamTooLong

/-- construct(S, L) on a machine that has run: allowed while HALTED, forbidden while RUNNING (70_reset_and_hazards.md R172,
R176). Nothing of the earlier run survives. -/
def reconstruct (s : State) (stream : List Element) : Result :=
  match s.run with
  | .halted => construct stream
  | .running => .refused .constructWhileRunning

/-- A program in execution order as the stream the producer supplies: S[i] = E[L-1-i] (30_encoding.md R70). -/
def storedOrder (program : List Element) : List Element := program.reverse

/-- The outputs of the block (70_reset_and_hazards.md R175) but mem_rd. `ir` stands for the pair ir_v
and ir_op: with ir_v = 0 the spec gives ir_op no value, and none holds none. `n` is W_N bits wide, an open width, and stands
here as the number it holds. -/
structure Outputs where
  halted : BitVec 1
  hcause : BitVec 3
  regA : Byte
  regB : Byte
  regX : Byte
  regY : Byte
  sp : Byte
  cc : BitVec 3
  ir : Option Byte
  n : Nat
  deriving DecidableEq, Repr

/-- What the outputs carry. -/
def outputs (s : State) : Outputs where
  halted := runCode s.run
  hcause := haltCode s.hcause
  regA := s.a
  regB := s.b
  regX := s.x
  regY := s.y
  sp := s.sp
  cc := ccCode s.cc
  ir := s.ir
  n := s.n

/-- The host's read of the outputs: after the halt only (70_reset_and_hazards.md R176). -/
def readOutputs (s : State) : Host.Outcome Outputs Fault Refusal :=
  match s.run with
  | .halted => .next (outputs s)
  | .running => .refused .readWhileRunning

/-- mem_rd(addr), after the halt only (70_reset_and_hazards.md R175, R176). -/
def readMemory (s : State) (addr : Byte) : Host.Outcome Byte Fault Refusal :=
  match s.run with
  | .halted => .next (s.load addr)
  | .running => .refused .readWhileRunning

end Sys2Proof.Machine
end

