-- ==== Sys2Proof/Safety.lean ====
section
/-! DEFINITION. The terms claims are stated in: what is fetched next, the machine's invariant, what counts as a safe state,
and the relations between two states that the isolation claims compare. -/

namespace Sys2Proof.Machine

/-- The core is running and `e` is the element its next step fetches: e = S[N-1] with N > 0 (40_fetch_dispatch.md R80). -/
def State.fetches (s : State) (e : Element) : Prop := s.run = .running ∧ 0 < s.n ∧ s.nextElement = some e

/-- N is a count of elements of the stream: 0 <= N <= L (10_state.md R30). -/
def State.inBounds (s : State) : Prop := s.n ≤ s.stream.length

/-- CC holds one of the values the handlers write (10_state.md R24). -/
def State.ccWritten (s : State) : Prop := s.cc = .default ∨ s.cc = .zero ∨ s.cc = .overflow

/-- HCAUSE is NONE exactly while the core runs (10_state.md R29). -/
def State.causeMatchesRun (s : State) : Prop := s.hcause = .none ↔ s.run = .running

/-- The machine's invariant: memory in canonical form, MEM[0] untouched (20_memory.md R49), N a count of the stream, CC one
of the written values, and HCAUSE matching RUN. -/
structure State.Inv (s : State) : Prop where
  memory : s.mem.wf = true
  cellZero : s.load 0#8 = 0#8
  bounds : s.inBounds
  flag : s.ccWritten
  cause : s.causeMatchesRun

/-- The state is not the halt on a reserved opcode number. 93_implementation_defined.md I3 asks a model to treat that halt as
a fault: a claim about programs that must not rest on it takes this as a premise. DESIGN CHOICE, log entry 2. -/
def State.safe (s : State) : Prop := s.hcause ≠ .illegal

/-- Two states that differ at most in the cells at or below SP, which no instruction can read before a push overwrites them
(20_memory.md R50). -/
def State.sameLiveStack (s t : State) : Prop :=
  t = { s with mem := t.mem } ∧ ∀ addr : Byte, s.sp < addr → t.load addr = s.load addr

/-- Push each value in turn, the head of the list first (42_stack.md R143). -/
def pushAll : List Byte → State → State
  | [], s => s
  | v :: vs, s => pushAll vs (pushHandler v s)

/-- Pop `k` times into `r`: the values popped, in order, and the state after them (42_stack.md R143). -/
def popAll (r : Reg) : Nat → State → List Byte × State
  | 0, s => ([], s)
  | k + 1, s =>
    let s' := popHandler r s
    let rest := popAll r k s'
    (s'.readReg r :: rest.1, rest.2)

end Sys2Proof.Machine
end

