-- ==== Sys2Proof/Certificates/Slice0/Obligations.lean ====
section
/-! DEFINITION. The statements for the provers, from the spec's numbered rules. A statement that rests on a decision of
92_eei_decisions.md or on a choice of the model says so and has basis 'derived'. -/

open Sys2Proof Sys2Proof.Machine

/-! ### Encoding -/

/-- The 25 rows of the opcode table, each element written out (30_encoding.md section 2; numbering is decision D2). The
register column is the decoder's (section 4): none for SETx, whose register is unused. -/
def Obligations.OpcodeTableRows : Prop :=
  ∀ row ∈ ([(0x100#9, .pushi, .opi, none),
      (0x101#9, .pusha, .op, some .a), (0x102#9, .pushb, .op, some .b),
      (0x103#9, .pushx, .op, some .x), (0x104#9, .pushy, .op, some .y),
      (0x105#9, .popa, .op, some .a), (0x106#9, .popb, .op, some .b),
      (0x107#9, .popx, .op, some .x), (0x108#9, .popy, .op, some .y)] ++
      [(0x109#9, .adda, .opi, some .a), (0x10A#9, .addb, .opi, some .b),
      (0x10B#9, .addx, .opi, some .x), (0x10C#9, .addy, .opi, some .y),
      (0x10D#9, .suba, .opi, some .a), (0x10E#9, .subb, .opi, some .b),
      (0x10F#9, .subx, .opi, some .x), (0x110#9, .suby, .opi, some .y)] ++
      [(0x111#9, .brz, .op, none), (0x112#9, .brn, .op, none), (0x113#9, .bro, .op, none),
      (0x114#9, .seta, .op, none), (0x115#9, .setb, .op, none), (0x116#9, .setx, .op, none),
      (0x117#9, .sety, .op, none), (0x118#9, .halt, .op, none)] :
      List (Element × Instr × Form × Option Reg)),
    encode row.2.1 = row.1 ∧ decode row.1 = .instr row.2.1 ∧ row.2.1.form = row.2.2.1 ∧ row.2.1.target = row.2.2.2

/-- Element layout (30_encoding.md section 1, decision D1): tag in bit 8, payload in bits 7:0, the operand element's number
is its byte, the opcode element's number is 256 more, and every element is one of the two kinds. -/
def Obligations.ElementIsTagAndPayload : Prop :=
  (∀ v : Byte, (operandElement v).toNat = v.toNat ∧ (opcodeElement v).toNat = 256 + v.toNat ∧
      decode (operandElement v) = .stray v) ∧
    ∀ e : Element, e.tag = e.getLsbD 8 ∧ (∀ k, k < 8 → e.payload.getLsbD k = e.getLsbD k) ∧
      (e = operandElement e.payload ∧ e.tag = false ∨ e = opcodeElement e.payload ∧ e.tag = true)

/-- Reserved opcode elements (30_encoding.md section 2, decision D3): exactly the numbers 25..255 name no instruction. -/
def Obligations.ReservedNumbersNameNoInstruction : Prop :=
  ∀ n : Byte, decode (opcodeElement n) = .reserved n ↔ 25 ≤ n.toNat

/-- The decoder function of 30_encoding.md section 4 by its ranges agrees with the instruction the decoder reads. -/
def Obligations.DecoderAgreesWithItsRanges : Prop :=
  ∀ n : Byte, decodeRanges n =
    match decode (opcodeElement n) with
    | .instr i => (i.family, i.target)
    | .stray _ | .reserved _ => (.illegal, none)

/-- Decode and encode agree on one element, both ways. -/
def Obligations.DecodeEncodeOneElement : Prop :=
  (∀ i : Instr, decode (encode i) = .instr i) ∧ ∀ (e : Element) (i : Instr), decode e = .instr i → encode i = e

/-- Decode and encode agree on whole streams: every well-formed sequence of parcels (every instruction, every operand
value, every mismatch) is read back from its elements. -/
def Obligations.ParcelsOfEncodedParcels : Prop :=
  ∀ ps : List Parcel, Parcel.listWf ps = true → parcels (encodeParcels ps) = ps

/-- Every stream of elements is cut into a well-formed sequence of parcels, and no bit of it is dropped. -/
def Obligations.EncodedParcelsOfStream : Prop :=
  ∀ es : List Element, Parcel.listWf (parcels es) = true ∧ encodeParcels (parcels es) = es

/-- One step of a running core consumes exactly the next parcel of the elements still to be consumed
(30_encoding.md section 3: the form alone decides how many elements a step consumes). -/
def Obligations.OneStepConsumesOneParcel : Prop :=
  ∀ (s : State) (p : Parcel) (ps : List Parcel), s.run = .running → s.inBounds → parcels s.pending = p :: ps →
    ∃ t, step s = .next t ∧ parcels t.pending = ps ∧ t.n + (encodeParcel p).length = s.n

/-! ### The step -/

/-- Once HALTED, no step changes any state (10_state.md section 5). That a step of a halted core answers the same state is
the model's reading, log entry 1. -/
def Obligations.HaltedCoreKeepsItsState : Prop :=
  ∀ s : State, s.run = .halted → step s = .next s

/-- An empty-stream fetch sets IR to none and halts with EOS, and changes nothing else (40_fetch_dispatch.md section 1,
decision D15). -/
def Obligations.EmptyStreamFetchHalts : Prop :=
  ∀ s : State, s.run = .running → s.n = 0 →
    step s = .next { s with ir := none, run := .halted, hcause := .eos }

/-- A stray operand element is consumed and discarded with no other state change (40_fetch_dispatch.md R86), and the rule's
example: from the stream of the one operand 7, the second step halts with EOS and IR none. -/
def Obligations.StrayOperandIsDiscarded : Prop :=
  (∀ (s : State) (v : Byte), s.fetches (operandElement v) → step s = .next { s with n := s.n - 1 }) ∧
    (∀ (s : State) (v : Byte), s.fetches (operandElement v) → s.n = 1 →
      ∃ t u, step s = .next t ∧ step t = .next u ∧ u.run = .halted ∧ u.hcause = .eos ∧ u.ir = none) ∧
    step (constructed [0x007#9]) = .next { constructed [0x007#9] with n := 0 } ∧
    step { constructed [0x007#9] with n := 0 } =
      .next { constructed [0x007#9] with n := 0, run := .halted, hcause := .eos, ir := none }

/-- A reserved opcode number fetched as an opcode is latched in IR and halts with ILLEGAL (40_fetch_dispatch.md section 5,
decision D3). That the model takes this effect and not a fault is log entry 2. -/
def Obligations.ReservedOpcodeHaltsIllegal : Prop :=
  ∀ (s : State) (op : Byte), 25 ≤ op.toNat → s.fetches (opcodeElement op) →
    step s = .next { s with n := s.n - 1, ir := some op, run := .halted, hcause := .illegal }

/-- A step leaves the safe states exactly where it fetches a reserved opcode number (40_fetch_dispatch.md section 5,
93_implementation_defined.md I3, decision D3): the model's reading of the advice to treat that halt as a fault, log entry 2. -/
def Obligations.SafetyIsLostOnlyOnReservedOpcodes : Prop :=
  ∀ s t : State, s.safe → step s = .next t →
    (¬ t.safe ↔ ∃ op : Byte, 25 ≤ op.toNat ∧ s.fetches (opcodeElement op))

/-- A step runs the decoded instruction: N is decremented and IR latched before dispatch, and then the step is exec of that
instruction at that state (40_fetch_dispatch.md section 1). -/
def Obligations.StepRunsDecodedInstruction : Prop :=
  ∀ (s : State) (e : Element) (i : Instr), s.fetches e → decode e = .instr i →
    step s = exec i { s with n := s.n - 1, ir := some e.payload }

/-- The instruction-register latch (40_fetch_dispatch.md section 1): set by the fetch of every opcode element, reserved
numbers included, and held until the next one or until an empty-stream fetch. That the empty-stream fetch sets IR to none is
decision D15 (log entry 8); that there is a step of a halted core, which keeps IR, is the model's reading (log entry 1). -/
def Obligations.IRHoldsTheLastOpcodeFetched : Prop :=
  ∀ s t : State, step s = .next t →
    (∀ op : Byte, s.fetches (opcodeElement op) → t.ir = some op) ∧
      (∀ v : Byte, s.fetches (operandElement v) → t.ir = s.ir) ∧
        (s.run = .running → s.n = 0 → t.ir = none) ∧ (s.run = .halted → t.ir = s.ir)

/-- Fetch order (40_fetch_dispatch.md R82): a fetch and an operand fetch alike take the element S[N-1] and leave the one
before it next; so a step drops elements from the head of S[N-1], ..., S[0] only, and from construction that is the whole
stream from its tail. -/
def Obligations.ElementsAreConsumedFromTheTail : Prop :=
  (∀ S : List Element, (constructed S).pending = S.reverse) ∧
    (∀ (s : State) (e : Element), s.fetches e → s.stream[s.n - 1]? = some e ∧ ∃ rest, s.pending = e :: rest) ∧
      (∀ (s s' : State) (arg : Int), 0 < s.n → fetchOperand s = .next (arg, s') →
        ∃ e, s.stream[s.n - 1]? = some e ∧ s.pending = e :: s'.pending) ∧
        ∀ s t : State, s.inBounds → step s = .next t → t.n ≤ s.n ∧ t.pending = s.pending.drop (s.n - t.n)

/-- The operand fetch, form by form (40_fetch_dispatch.md section 1): an operand element gives its signed payload, an
opcode element gives 0 and is lost, an empty stream gives 0 and consumes nothing (decision D14), and N beyond the stream
faults (log entry 5). -/
def Obligations.OperandFetchForms : Prop :=
  ∀ s : State,
    (s.n = 0 → fetchOperand s = .next (0, s)) ∧
      (∀ v : Byte, 0 < s.n → s.nextElement = some (operandElement v) →
        fetchOperand s = .next (v.toInt, { s with n := s.n - 1 })) ∧
        (∀ op : Byte, 0 < s.n → s.nextElement = some (opcodeElement op) →
          fetchOperand s = .next (0, { s with n := s.n - 1 })) ∧
          (s.stream.length < s.n → fetchOperand s = .fault .streamOverrun)

/-! ### HALT and the instructions that halt as implemented -/

/-- `HALT` (40_fetch_dispatch.md R87): halts with cause HALT and changes nothing else; the step of its element 0x118 latches
24 in IR; consumed as the operand of an OPI instruction it does not halt; and the rule's example. -/
def Obligations.HaltStopsTheCore : Prop :=
  (∀ s : State, exec .halt s = .next { s with run := .halted, hcause := .halt }) ∧
    (∀ s : State, s.fetches 0x118#9 →
      step s = .next { s with n := s.n - 1, ir := some 24, run := .halted, hcause := .halt }) ∧
    (∀ (i : Instr) (s : State), i.form = .opi → 0 < s.n → s.nextElement = some 0x118#9 →
      ∃ t, exec i s = .next t ∧ t.run = s.run ∧ t.hcause = s.hcause ∧ t.n = s.n - 1) ∧
    step (constructed [0x118#9]) =
      .next { constructed [0x118#9] with n := 0, ir := some 24, run := .halted, hcause := .halt }

/-- `BRZ`, `BRN`, `BRO` (40_fetch_dispatch.md R90, R91, R92): each halts with UNIMPL whatever CC holds, and changes nothing
else; the step of its element latches its number in IR. -/
def Obligations.BranchesHaltAsUnimplemented : Prop :=
  ∀ row ∈ ([(.brz, 0x111#9, 17), (.brn, 0x112#9, 18), (.bro, 0x113#9, 19)] : List (Instr × Element × Byte)),
    ∀ s : State, exec row.1 s = .next { s with run := .halted, hcause := .unimpl } ∧
      (s.fetches row.2.1 →
        step s = .next { s with n := s.n - 1, ir := some row.2.2, run := .halted, hcause := .unimpl })

/-- `SETA`, `SETB`, `SETX`, `SETY` (40_fetch_dispatch.md R93 to R96): each halts with UNIMPL, the register it names
unwritten and the element after it not consumed; the step of its element latches its number in IR. -/
def Obligations.SetsHaltAsUnimplemented : Prop :=
  ∀ row ∈ ([(.seta, 0x114#9, 20), (.setb, 0x115#9, 21), (.setx, 0x116#9, 22), (.sety, 0x117#9, 23)] :
      List (Instr × Element × Byte)),
    ∀ s : State, exec row.1 s = .next { s with run := .halted, hcause := .unimpl } ∧
      (s.fetches row.2.1 →
        step s = .next { s with n := s.n - 1, ir := some row.2.2, run := .halted, hcause := .unimpl })

/-! ### Arithmetic -/

/-- The add outcomes (41_arithmetic.md section 3) of `ADDA`, `ADDB`, `ADDX`, `ADDY` on every register value and operand: the
next state, by the true sum. The exact guard is decision D6, the two last rows (sums below -128) are decision D7. -/
def Obligations.AddOutcomes : Prop :=
  ∀ row ∈ ([(.adda, .a), (.addb, .b), (.addx, .x), (.addy, .y)] : List (Instr × Reg)),
    ∀ (s s' : State) (arg : Int), fetchOperand s = .next (arg, s') →
      let sum := (s.readReg row.2).toInt + arg
      (128 ≤ sum → exec row.1 s = .next { s' with cc := .overflow }) ∧
        (sum = 0 → exec row.1 s = .next { s'.writeReg row.2 0#8 with cc := .zero }) ∧
        (-128 ≤ sum → sum ≤ 127 → sum ≠ 0 →
          ∃ v : Byte, v.toInt = sum ∧ exec row.1 s = .next { s'.writeReg row.2 v with cc := .default }) ∧
        (-255 ≤ sum → sum ≤ -129 →
          ∃ v : Byte, v.toInt = sum + 256 ∧ exec row.1 s = .next { s'.writeReg row.2 v with cc := .default }) ∧
        (sum = -256 → exec row.1 s = .next { s'.writeReg row.2 0#8 with cc := .zero })

/-- The subtract outcomes (41_arithmetic.md section 3) of `SUBA`, `SUBB`, `SUBX`, `SUBY` on every register value and
operand. The signed comparison is decision D8, the last row (differences above 127) is decision D7. -/
def Obligations.SubOutcomes : Prop :=
  ∀ row ∈ ([(.suba, .a), (.subb, .b), (.subx, .x), (.suby, .y)] : List (Instr × Reg)),
    ∀ (s s' : State) (arg : Int), fetchOperand s = .next (arg, s') →
      let difference := (s.readReg row.2).toInt - arg
      ((s.readReg row.2).toInt < arg → exec row.1 s = .next { s' with cc := .overflow }) ∧
        (difference = 0 → exec row.1 s = .next { s'.writeReg row.2 0#8 with cc := .zero }) ∧
        (1 ≤ difference → difference ≤ 127 →
          ∃ v : Byte, v.toInt = difference ∧ exec row.1 s = .next { s'.writeReg row.2 v with cc := .default }) ∧
        (128 ≤ difference → difference ≤ 255 →
          ∃ v : Byte, v.toInt = difference - 256 ∧ exec row.1 s = .next { s'.writeReg row.2 v with cc := .default })

/-- Every operand and every register value falls under a row of the outcome tables: an operand fetch gives an integer in
-128..127, and so does the signed reading of a register. -/
def Obligations.OperandsAreSignedBytes : Prop :=
  (∀ (s s' : State) (arg : Int), fetchOperand s = .next (arg, s') → -128 ≤ arg ∧ arg ≤ 127) ∧
    ∀ (s : State) (r : Reg), -128 ≤ (s.readReg r).toInt ∧ (s.readReg r).toInt ≤ 127

/-- Operand 0 (41_arithmetic.md section 3), as a mismatch or an empty stream gives it too (decision D14): an add keeps its
register and sets ZERO or DEFAULT; a subtract rejects a negative register. -/
def Obligations.OperandZeroOutcomes : Prop :=
  (∀ row ∈ ([(.adda, .a), (.addb, .b), (.addx, .x), (.addy, .y)] : List (Instr × Reg)),
    ∀ s s' : State, fetchOperand s = .next (0, s') →
      exec row.1 s = .next { s' with cc := if s.readReg row.2 = 0#8 then .zero else .default }) ∧
    ∀ row ∈ ([(.suba, .a), (.subb, .b), (.subx, .x), (.suby, .y)] : List (Instr × Reg)),
      ∀ s s' : State, fetchOperand s = .next (0, s') →
        exec row.1 s = .next { s' with
          cc := if (s.readReg row.2).toInt < 0 then .overflow else if s.readReg row.2 = 0#8 then .zero else .default }

/-- Frame of the eight arithmetic instructions: CC, the named register and N (one element less, or none from an empty
stream) may change, and nothing else; no byte of memory does. -/
def Obligations.ArithmeticFrame : Prop :=
  ∀ row ∈ ([(.adda, .a), (.addb, .b), (.addx, .x), (.addy, .y), (.suba, .a), (.subb, .b), (.subx, .x), (.suby, .y)] :
      List (Instr × Reg)),
    ∀ s t : State, exec row.1 s = .next t →
      (∀ r, r ≠ row.2 → t.readReg r = s.readReg r) ∧ t.sp = s.sp ∧ (∀ addr, t.load addr = s.load addr) ∧
        t.mem = s.mem ∧ t.ir = s.ir ∧ t.run = s.run ∧ t.hcause = s.hcause ∧ t.stream = s.stream ∧ t.n = s.n - 1

/-! ### Stack -/

/-- `PUSHA`, `PUSHB`, `PUSHX`, `PUSHY` (42_stack.md R133 to R136): the register's pattern is stored at SP and SP decremented,
nothing when SP = 0; the step of its element consumes that one element and latches its number. -/
def Obligations.PushRegisterStoresAtSP : Prop :=
  ∀ row ∈ ([(.pusha, 0x101#9, 1, .a), (.pushb, 0x102#9, 2, .b), (.pushx, 0x103#9, 3, .x), (.pushy, 0x104#9, 4, .y)] :
      List (Instr × Element × Byte × Reg)),
    ∀ s : State,
      exec row.1 s =
          .next (if s.sp = 0#8 then s
            else { s with mem := s.mem.write s.sp (s.readReg row.2.2.2), sp := s.sp - 1#8 }) ∧
        (s.fetches row.2.1 → ∃ t, step s = .next t ∧
          t = (if s.sp = 0#8 then { s with n := s.n - 1, ir := some row.2.2.1 }
            else { s with n := s.n - 1, ir := some row.2.2.1,
                          mem := s.mem.write s.sp (s.readReg row.2.2.2), sp := s.sp - 1#8 }))

/-- `PUSHi` (42_stack.md section 2): the operand is fetched, even when the stack is full, and its pattern pushed; from an
empty stream the value is 0 (decision D14). -/
def Obligations.PushImmediateStoresItsOperand : Prop :=
  ∀ (s s' : State) (arg : Int), fetchOperand s = .next (arg, s') →
    ∃ v : Byte, v.toInt = arg ∧
      exec .pushi s =
        .next (if s.sp = 0#8 then s' else { s' with mem := s.mem.write s.sp v, sp := s.sp - 1#8 })

/-- `POPA`, `POPB`, `POPX`, `POPY` (42_stack.md R131, R137 to R140): an empty stack gives 0 and keeps SP; otherwise SP is
incremented and the cell there read; the step of its element consumes that one element and latches its number. -/
def Obligations.PopLoadsAboveSP : Prop :=
  ∀ row ∈ ([(.popa, 0x105#9, 5, .a), (.popb, 0x106#9, 6, .b), (.popx, 0x107#9, 7, .x), (.popy, 0x108#9, 8, .y)] :
      List (Instr × Element × Byte × Reg)),
    ∀ s : State,
      exec row.1 s =
          .next (if s.sp = 255#8 then s.writeReg row.2.2.2 0
            else { s with sp := s.sp + 1#8 }.writeReg row.2.2.2 (s.mem.read (s.sp + 1#8))) ∧
        (s.fetches row.2.1 → ∃ t, step s = .next t ∧
          t = (if s.sp = 255#8 then { s with n := s.n - 1, ir := some row.2.2.1 }.writeReg row.2.2.2 0
            else { s with n := s.n - 1, ir := some row.2.2.1, sp := s.sp + 1#8 }.writeReg row.2.2.2
              (s.mem.read (s.sp + 1#8))))

/-- Stack isolation (42_stack.md R144) and frame: a push writes MEM[SP] and SP only (nothing when SP = 0), a pop writes SP
and the named register only; CC and every other register keep their values. `PUSHi` also consumes its operand. -/
def Obligations.StackFrame : Prop :=
  (∀ i ∈ ([.pushi, .pusha, .pushb, .pushx, .pushy] : List Instr), ∀ s t : State, s.mem.wf = true → exec i s = .next t →
    (∀ r, t.readReg r = s.readReg r) ∧ t.cc = s.cc ∧ t.ir = s.ir ∧ t.run = s.run ∧ t.hcause = s.hcause ∧
      t.stream = s.stream ∧ t.n = (if i = .pushi then s.n - 1 else s.n) ∧
        (∀ addr, addr ≠ s.sp ∨ s.sp = 0#8 → t.load addr = s.load addr)) ∧
    ∀ row ∈ ([(.popa, .a), (.popb, .b), (.popx, .x), (.popy, .y)] : List (Instr × Reg)), ∀ s t : State,
      exec row.1 s = .next t →
        (∀ r, r ≠ row.2 → t.readReg r = s.readReg r) ∧ t.cc = s.cc ∧ t.ir = s.ir ∧ t.run = s.run ∧
          t.hcause = s.hcause ∧ t.stream = s.stream ∧ t.n = s.n ∧ t.mem = s.mem ∧ ∀ addr, t.load addr = s.load addr

/-- The pushed value is on top: after each of the five pushes with SP > 0 the cell above the new SP holds the value pushed,
the register's pattern, or for `PUSHi` the pattern whose signed reading is the operand fetched (20_memory.md section 3). -/
def Obligations.PushedValueIsOnTop : Prop :=
  (∀ row ∈ ([(.pusha, .a), (.pushb, .b), (.pushx, .x), (.pushy, .y)] : List (Instr × Reg)),
    ∀ s : State, s.mem.wf = true → s.sp ≠ 0#8 →
      ∃ t, exec row.1 s = .next t ∧ t.load (t.sp + 1#8) = s.readReg row.2) ∧
    ∀ (s s' : State) (arg : Int), s.mem.wf = true → s.sp ≠ 0#8 → fetchOperand s = .next (arg, s') →
      ∃ t, exec .pushi s = .next t ∧ (t.load (t.sp + 1#8)).toInt = arg

/-- Boundaries (42_stack.md R142): a pop with SP = 255 writes 0 and changes neither SP nor MEM, a push with SP = 0 changes
neither, and neither raises an error or stops the core. -/
def Obligations.StackBoundaries : Prop :=
  (∀ row ∈ ([(.popa, .a), (.popb, .b), (.popx, .x), (.popy, .y)] : List (Instr × Reg)), ∀ s : State, s.sp = 255#8 →
    ∃ t, exec row.1 s = .next t ∧ t.readReg row.2 = 0#8 ∧ t.sp = s.sp ∧ t.mem = s.mem ∧ t.run = s.run) ∧
    ∀ i ∈ ([.pushi, .pusha, .pushb, .pushx, .pushy] : List Instr), ∀ s : State, s.sp = 0#8 → s.inBounds →
      ∃ t, exec i s = .next t ∧ t.sp = s.sp ∧ t.mem = s.mem ∧ t.run = s.run

/-- Round trip (42_stack.md section 3): with SP in 1..255 a push of r followed by a pop into r only stores the register at
the old SP; with SP = 0 the push is dropped and the pop loads MEM[1]. -/
def Obligations.PushThenPopRoundTrip : Prop :=
  ∀ row ∈ ([(.pusha, .popa, .a), (.pushb, .popb, .b), (.pushx, .popx, .x), (.pushy, .popy, .y)] :
      List (Instr × Instr × Reg)),
    ∀ s : State, s.mem.wf = true →
      ∃ t u, exec row.1 s = .next t ∧ exec row.2.1 t = .next u ∧
        (s.sp ≠ 0#8 → u = { s with mem := u.mem } ∧ u.load s.sp = s.readReg row.2.2 ∧
          ∀ addr, addr ≠ s.sp → u.load addr = s.load addr) ∧
        (s.sp = 0#8 → u = { s with sp := 1#8 }.writeReg row.2.2 (s.load 1#8))

/-- Last in, first out (42_stack.md section 3): k pushes from SP >= k and then k pops give the values back in reverse order
and restore SP. -/
def Obligations.LastInFirstOut : Prop :=
  ∀ (r : Reg) (vs : List Byte) (s : State), s.mem.wf = true → vs.length ≤ s.sp.toNat →
    (popAll r vs.length (pushAll vs s)).1 = vs.reverse ∧ (popAll r vs.length (pushAll vs s)).2.sp = s.sp

/-- Order of anomalies in one step (60_exceptions.md section 3): `PUSHi` on a full stack with an opcode element in the
operand position consumes that element and changes nothing else; no add with such an operand sets OVERFLOW; every subtract
with such an operand and a negative register does. -/
def Obligations.MismatchComesBeforeTheHandlersTest : Prop :=
  ∀ (s : State) (op : Byte), 0 < s.n → s.nextElement = some (opcodeElement op) →
    (s.sp = 0#8 → exec .pushi s = .next { s with n := s.n - 1 }) ∧
      (∀ i ∈ ([.adda, .addb, .addx, .addy] : List Instr), ∃ t, exec i s = .next t ∧ t.cc ≠ .overflow) ∧
        ∀ row ∈ ([(.suba, .a), (.subb, .b), (.subx, .x), (.suby, .y)] : List (Instr × Reg)),
          (s.readReg row.2).toInt < 0 → exec row.1 s = .next { s with n := s.n - 1, cc := .overflow }

/-! ### Rules over all instructions and all steps -/

/-- Per-register isolation (10_state.md R22): an instruction writes at most the register it names; the step finds that
register from the opcode latched in IR. -/
def Obligations.OnlyTheNamedRegisterIsWritten : Prop :=
  (∀ (i : Instr) (s t : State) (r : Reg), exec i s = .next t → i.target ≠ some r → t.readReg r = s.readReg r) ∧
    ∀ (s t : State) (op : Byte), s.fetches (opcodeElement op) → step s = .next t →
      t.ir = some op ∧ ∀ r, (decodeRanges op).2 ≠ some r → t.readReg r = s.readReg r

/-- Which general registers an instruction neither reads nor writes (10_state.md section 1): an instruction neither reads
nor writes a register it does not name (PUSHi, HALT, BRx and SETx name none); pops do not read theirs; pushes do not write
theirs; an add or subtract that is rejected does not write its register. What is read and written stands in AddOutcomes,
SubOutcomes, PushRegisterStoresAtSP and PopLoadsAboveSP. -/
def Obligations.RegistersReadAndWritten : Prop :=
  (∀ (i : Instr) (s t : State) (r : Reg) (v : Byte), i.target ≠ some r → exec i s = .next t →
    t.readReg r = s.readReg r ∧ exec i (s.writeReg r v) = .next (t.writeReg r v)) ∧
    (∀ row ∈ ([(.popa, .a), (.popb, .b), (.popx, .x), (.popy, .y)] : List (Instr × Reg)), ∀ (s : State) (v : Byte),
      exec row.1 (s.writeReg row.2 v) = exec row.1 s) ∧
    (∀ i ∈ ([.pusha, .pushb, .pushx, .pushy] : List Instr), ∀ (s t : State) (r : Reg), exec i s = .next t →
      t.readReg r = s.readReg r) ∧
    ∀ (i : Instr) (s t : State) (r : Reg), i.family = .add ∨ i.family = .sub → exec i s = .next t →
      t.cc = .overflow → t.readReg r = s.readReg r

/-- The stack pointer (10_state.md R23): reset value 255; a push that stores decrements it, a pop that reads increments it,
no other instruction and no other step changes it, and no other instruction reads it. -/
def Obligations.OnlyPushAndPopMoveSP : Prop :=
  State.reset.sp = 255#8 ∧ (∀ S, (constructed S).sp = 255#8) ∧
    (∀ (i : Instr) (s t : State), exec i s = .next t →
      t.sp.toNat =
        if i.family = .pushi ∨ i.family = .pushr then s.sp.toNat - 1
        else if i.family = .popr then min 255 (s.sp.toNat + 1)
        else s.sp.toNat) ∧
    (∀ (i : Instr) (s t : State) (v : Byte), i.family ≠ .pushi → i.family ≠ .pushr → i.family ≠ .popr →
      exec i s = .next t → exec i { s with sp := v } = .next { t with sp := v }) ∧
    ∀ s t : State, step s = .next t → t.sp ≠ s.sp →
      ∃ i, s.fetches (encode i) ∧ (i.family = .pushi ∨ i.family = .pushr ∨ i.family = .popr)

/-- CC after every step (10_state.md section 3): an add or subtract whose guard rejects sets OVERFLOW, else ZERO if the
8-bit result is 0, else DEFAULT, whatever CC held; every other step leaves CC unchanged. The guards and the 8-bit result
are decisions D6, D7, D8. -/
def Obligations.CCAfterEachStep : Prop :=
  (∀ row ∈ ([(.adda, .a), (.addb, .b), (.addx, .x), (.addy, .y)] : List (Instr × Reg)), ∀ (s s' : State) (arg : Int),
    s.fetches (encode row.1) → fetchOperand { s with n := s.n - 1 } = .next (arg, s') →
      ∃ t, step s = .next t ∧ t.cc =
        if (s.readReg row.2).toInt + arg > 127 then .overflow
        else if t.readReg row.2 = 0#8 then .zero else .default) ∧
    (∀ row ∈ ([(.suba, .a), (.subb, .b), (.subx, .x), (.suby, .y)] : List (Instr × Reg)), ∀ (s s' : State) (arg : Int),
      s.fetches (encode row.1) → fetchOperand { s with n := s.n - 1 } = .next (arg, s') →
        ∃ t, step s = .next t ∧ t.cc =
          if (s.readReg row.2).toInt < arg then .overflow
          else if t.readReg row.2 = 0#8 then .zero else .default) ∧
    ∀ s t : State, step s = .next t →
      (∀ i, s.fetches (encode i) → i.family ≠ .add ∧ i.family ≠ .sub) → t.cc = s.cc

/-- NEGATIVE and CARRY are never written (10_state.md section 3): a step that leaves one of them in CC found it there. -/
def Obligations.NegativeAndCarryAreNeverWritten : Prop :=
  ∀ s t : State, step s = .next t → t.cc = .negative ∨ t.cc = .carry → t.cc = s.cc

/-- No instruction reads CC (10_state.md section 3): the same step from a state with another CC gives the same state, with
CC either left as it was or written with the same value. -/
def Obligations.NoStepReadsCC : Prop :=
  ∀ (s t : State) (c : CC), step s = .next t →
    step { s with cc := c } = .next t ∨ step { s with cc := c } = .next { t with cc := c }

/-- HCAUSE changes no control flow (10_state.md section 7, decision D10): the same step from a state with another halt cause
gives the same state, with the cause either left as it was or written with the same value. -/
def Obligations.NoStepReadsHaltCause : Prop :=
  ∀ (s t : State) (c : HaltCause), step s = .next t →
    step { s with hcause := c } = .next t ∨ step { s with hcause := c } = .next { t with hcause := c }

/-- No step depends on a cell at or below SP (20_memory.md section 3): two states that differ only in such cells take steps
to states that again differ only there. The host reads every cell after the halt; this says nothing of that. -/
def Obligations.NoStepDependsOnDeadStackCells : Prop :=
  ∀ s s' t : State, s.mem.wf = true → s'.mem.wf = true → s.sameLiveStack s' → step s = .next t →
    ∃ t', step s' = .next t' ∧ t.sameLiveStack t'

/-- MEM[0] is never written (20_memory.md section 3). -/
def Obligations.CellZeroIsNeverWritten : Prop :=
  ∀ s t : State, s.mem.wf = true → step s = .next t → t.load 0#8 = s.load 0#8

/-- The stream is read-only and N never grows (10_state.md section 8, 20_memory.md section 3); a step of a running core that
does not halt consumes an element. -/
def Obligations.StreamIsReadOnly : Prop :=
  ∀ s t : State, step s = .next t → t.stream = s.stream ∧ t.n ≤ s.n ∧ (t.run = .running → t.n < s.n)

/-- The four stops (40_fetch_dispatch.md section 6; HCAUSE is decision D10): a running core's step halts exactly on an empty
stream, HALT, an unimplemented opcode or a reserved opcode, and HCAUSE tells which. -/
def Obligations.HaltCauseTellsTheFourStops : Prop :=
  ∀ s t : State, s.run = .running → step s = .next t →
    t.hcause =
      (if s.n = 0 then .eos
      else match s.nextElement.map decode with
        | some (.reserved _) => .illegal
        | some (.instr i) =>
          if i.family = .halt then .halt else if i.family = .unimpl then .unimpl else s.hcause
        | some (.stray _) | none => s.hcause) ∧
    (t.run = .halted ↔
      s.n = 0 ∨ (∃ op : Byte, s.fetches (opcodeElement op) ∧
        (decodeRanges op).1 ∈ ([.halt, .unimpl, .illegal] : List Family)))

/-- Every instruction completes (60_exceptions.md section 1: no exception): with N a count of the stream, exec of each of
the 25 instructions answers a next state in which N is still one. -/
def Obligations.EveryInstructionCompletes : Prop :=
  ∀ (i : Instr) (s : State), s.inBounds → ∃ t, exec i s = .next t ∧ t.inBounds

/-- Every step completes (60_exceptions.md section 1: no exception), with N still a count of the stream. The spec says so of a
running core; that a halted core has a step which answers at all is the model's reading (DEDUCED, log entry 1). -/
def Obligations.EveryStepCompletes : Prop :=
  ∀ s : State, s.inBounds → ∃ t, step s = .next t ∧ t.inBounds

/-- The one fault, log entry 5: N beyond the stream, which 10_state.md section 8 says N never is, stops the step of a
running core and every instruction that fetches an operand. -/
def Obligations.OverrunFaults : Prop :=
  ∀ s : State, s.stream.length < s.n →
    (s.run = .running → step s = .fault .streamOverrun) ∧
      ∀ i : Instr, i.form = .opi → exec i s = .fault .streamOverrun

/-- Termination bound (40_fetch_dispatch.md section 6): from every state with N a count of the stream, N + 1 steps reach
HALTED; so from construction L + 1 steps do. The N + 1 steps of a run that halts earlier go on past the halt, and rest there
on the model's reading that a step of a halted core answers the same state (DEDUCED, log entry 1). -/
def Obligations.RunsEndWithinNPlusOneSteps : Prop :=
  ∀ s : State, s.inBounds →
    ∃ t, Host.Core.run Sys2Proof.core (s.n + 1) s = .next t ∧ State.run t = .halted

/-- Memory keeps its canonical form in every step. -/
def Obligations.StepKeepsMemoryCanonical : Prop :=
  ∀ s t : State, s.mem.wf = true → step s = .next t → t.mem.wf = true

/-- Every step keeps the machine's invariant: canonical memory, MEM[0] = 0, N a count of the stream, CC one of the written
values, HCAUSE matching RUN. -/
def Obligations.StepKeepsInvariant : Prop :=
  ∀ s t : State, s.Inv → step s = .next t → t.Inv

/-- The machine's invariant holds after every construction, and at State.reset. -/
def Obligations.InvariantHoldsAfterConstruction : Prop :=
  State.reset.Inv ∧ ∀ S : List Element, (constructed S).Inv

/-! ### Reset and host interface -/

/-- Reset is construction (70_reset_and_hazards.md section 1; HCAUSE is decision D10): every piece of state at its reset
value, for every stream that construction accepts. -/
def Obligations.ConstructionResetsEverything : Prop :=
  ∀ S : List Element, S.length ≤ Config.lMax → ∃ s, construct S = .next s ∧
    (∀ r, s.readReg r = 0#8) ∧ s.sp = 255#8 ∧ s.cc = .default ∧ (∀ addr, s.load addr = 0#8) ∧ s.ir = none ∧
      s.run = .running ∧ s.stream = S ∧ s.n = S.length ∧ s.hcause = .none

/-- State.reset is the construction from the empty stream (log entry 3), and its first step halts with EOS
(70_reset_and_hazards.md section 1, empty stream). -/
def Obligations.ResetIsTheEmptyConstruction : Prop :=
  construct [] = .next State.reset ∧
    step State.reset = .next { State.reset with run := .halted, hcause := .eos, ir := none }

/-- The entry point (70_reset_and_hazards.md section 1): the first step after construction fetches the last element. -/
def Obligations.FirstFetchIsTheLastElement : Prop :=
  ∀ (S : List Element) (e : Element), (constructed (S ++ [e])).fetches e

/-- Storage order (30_encoding.md section 4): S[i] = E[L-1-i], so that a program supplied in reverse is consumed in its
execution order, and the next element is E[L-N], as a forward counter would find it (decision D20). -/
def Obligations.StorageOrderIsReversed : Prop :=
  ∀ E : List Element,
    (∀ i, i < E.length → (storedOrder E)[i]? = E[E.length - 1 - i]?) ∧
      (constructed (storedOrder E)).pending = E ∧
        ∀ n, 0 < n → n ≤ E.length → (storedOrder E)[n - 1]? = E[E.length - n]?

/-- The host constructs only before the first run and while HALTED, nothing of an earlier run survives, a stream longer
than L_MAX is refused, and the host reads only after the halt, when each output carries its piece of state, as its code where it
has one, and mem_rd the addressed byte (70_reset_and_hazards.md sections 1 and 3, decisions D4, D16). The refusals, and IR and
N standing as the values they hold, are the model's choices, log entry 12. -/
def Obligations.HostInterfaceRules : Prop :=
  (∀ S : List Element, Config.lMax < S.length → construct S = .refused .streamTooLong) ∧
    (∀ (s : State) (S : List Element), s.run = .halted → reconstruct s S = construct S) ∧
    (∀ (s : State) (S : List Element), s.run = .running → reconstruct s S = .refused .constructWhileRunning) ∧
    (∀ s : State, s.run = .halted → ∃ o, readOutputs s = .next o ∧
      o.halted = runCode s.run ∧ o.hcause = haltCode s.hcause ∧
        o.regA = s.a ∧ o.regB = s.b ∧ o.regX = s.x ∧ o.regY = s.y ∧
          o.sp = s.sp ∧ o.cc = ccCode s.cc ∧ o.ir = s.ir ∧ o.n = s.n) ∧
    (∀ (s : State) (addr : Byte), s.run = .halted → readMemory s addr = .next (s.load addr)) ∧
    ∀ (s : State) (addr : Byte), s.run = .running →
      readOutputs s = .refused .readWhileRunning ∧ readMemory s addr = .refused .readWhileRunning

/-- The codes at the outputs (decisions D10, D19): CC 0 to 4, RUN 0 and 1, HCAUSE 0 to 4. -/
def Obligations.OutputCodes : Prop :=
  ([CC.default, .zero, .overflow, .negative, .carry].map ccCode = [0, 1, 2, 3, 4]) ∧
    ([RunState.running, .halted].map runCode = [0, 1]) ∧
    ([HaltCause.none, .halt, .eos, .unimpl, .illegal].map haltCode = [0, 1, 2, 3, 4])

/-- N fits its register (10_state.md section 8, decision D4): N <= L <= L_MAX is below 2 to the power W_N. -/
def Obligations.CountFitsItsRegister : Prop :=
  ∀ s : State, s.inBounds → s.stream.length ≤ Config.lMax → s.n < 2 ^ Config.countWidth
end

