-- ==== Sys2Proof/Laws/Decode.lean ====
section
/-! SUPPORT. The laws of elements and of the decoder on them. -/

namespace Sys2Proof

@[simp] theorem tag_operandElement (v : Byte) : Element.tag (operandElement v) = false := by
  revert v; decide

@[simp] theorem tag_opcodeElement (n : Byte) : Element.tag (opcodeElement n) = true := by
  revert n; decide

@[simp] theorem payload_operandElement (v : Byte) : Element.payload (operandElement v) = v := by
  revert v; decide

@[simp] theorem payload_opcodeElement (n : Byte) : Element.payload (opcodeElement n) = n := by
  revert n; decide

/-- An element whose tag is 1 is the opcode element of its payload. -/
theorem opcodeElement_payload (e : Element) (h : e.tag = true) : opcodeElement e.payload = e := by
  revert e; decide

/-- An element whose tag is 0 is the operand element of its payload. -/
theorem operandElement_payload (e : Element) (h : e.tag = false) : operandElement e.payload = e := by
  revert e; decide

@[simp] theorem decodeOpcode_opcodeNumber (i : Instr) : decodeOpcode (opcodeNumber i) = some i := by
  cases i <;> rfl

/-- Opcode numbers name at most one instruction each. -/
theorem opcodeNumber_of_decodeOpcode (op : Byte) (i : Instr) (h : decodeOpcode op = some i) : opcodeNumber i = op := by
  revert op; cases i <;> decide

theorem decodeOpcode_eq_none (op : Byte) : decodeOpcode op = none ↔ 25 ≤ op.toNat := by
  revert op; decide

@[simp] theorem decode_operandElement (v : Byte) : decode (operandElement v) = .stray v := by
  simp [decode]

/-- The decoder's answers, each with what it says of the element. -/
theorem decode_cases (e : Element) :
    (e.tag = false ∧ decode e = .stray e.payload) ∨
      (e.tag = true ∧ decodeOpcode e.payload = none ∧ decode e = .reserved e.payload) ∨
        ∃ i, e.tag = true ∧ decodeOpcode e.payload = some i ∧ decode e = .instr i := by
  cases ht : e.tag
  · simp [decode, ht]
  · cases hd : decodeOpcode e.payload <;> simp [decode, ht, hd]

theorem decode_instr (e : Element) (i : Instr) (h : decode e = .instr i) :
    e.tag = true ∧ decodeOpcode e.payload = some i := by
  rcases decode_cases e with ⟨-, hd⟩ | ⟨-, -, hd⟩ | ⟨j, ht, ho, hd⟩ <;> rw [hd] at h <;> cases h
  exact ⟨ht, ho⟩

end Sys2Proof
end

