-- ==== Sys2Proof/Laws/Memory.lean ====
section
/-! SUPPORT. The laws of memory: read after write, the canonical form is kept, and equal reads are equal memories. -/

namespace Sys2Proof.Machine

/-- Addresses strictly rising. -/
abbrev Memory.Rising (m : Memory) : Prop := m.Pairwise (fun p q => p.1 < q.1)

/-- Every listed cell is within the address space and differs from what an unlisted one reads as. -/
abbrev Memory.Listed (m : Memory) : Prop := ∀ c ∈ m, c.1 < 256 ∧ c.2 ≠ Memory.unlisted

theorem Memory.wf_iff (m : Memory) : m.wf = true ↔ m.Rising ∧ m.Listed := by
  simp only [Memory.wf, Memory.Rising, Memory.Listed, Bool.and_eq_true, decide_eq_true_eq, List.all_eq_true]

@[simp] theorem Memory.read_nil (addr : Byte) : Memory.read [] addr = 0#8 := rfl

/-- An address below every listed one is unlisted. -/
theorem Memory.lookup_below (m : Memory) (k : Nat) (h : ∀ c ∈ m, k < c.1) : Memory.lookup m k = Memory.unlisted := by
  induction m with
  | nil => rfl
  | cons c rest ih =>
    have hc : k < c.1 := h c (by simp)
    rw [show c :: rest = (c.1, c.2) :: rest from rfl, Memory.lookup, if_neg (by omega)]
    exact ih fun d hd => h d (by simp [hd])

/-- Reading any cell after setting one. -/
theorem Memory.lookup_insert (m : Memory) (k j : Nat) (v : Byte) (h : m.Rising) :
    Memory.lookup (Memory.insert m k v) j = if j = k then v else Memory.lookup m j := by
  induction m with
  | nil =>
    by_cases hv : v = Memory.unlisted <;> simp [Memory.insert, Memory.lookup, hv, eq_comm]
  | cons c rest ih =>
    obtain ⟨i, w⟩ := c
    obtain ⟨hi, hrest⟩ := List.pairwise_cons.mp h
    have below : ∀ d, d ≤ i → Memory.lookup rest d = Memory.unlisted := fun d hd =>
      Memory.lookup_below rest d fun c hc => Nat.lt_of_le_of_lt hd (hi c hc)
    simp only [Memory.insert]
    split
    · next lt =>
      split
      · next hv =>
        by_cases hj : j = k
        · subst hj; simp [Memory.lookup, hv, show ¬ i = j by omega, below j (by omega)]
        · simp [hj]
      · by_cases hj : j = k
        · simp [Memory.lookup, hj]
        · simp [Memory.lookup, hj, Ne.symm hj]
    · split
      · next eq =>
        subst eq
        split
        · next hv =>
          by_cases hj : j = k
          · subst hj; simp [hv, below j (Nat.le_refl _)]
          · simp [Memory.lookup, hj, show ¬ k = j by omega]
        · by_cases hj : j = k
          · simp [Memory.lookup, hj]
          · simp [Memory.lookup, hj, Ne.symm hj]
      · by_cases hj : i = j
        · subst hj; simp [Memory.lookup, show ¬ i = k by omega]
        · simp [Memory.lookup, hj, ih hrest]

/-- The cells of an updated list are the new cell and cells that were there. -/
theorem Memory.mem_insert (m : Memory) (k : Nat) (v : Byte) (c : Host.Cell) (h : c ∈ Memory.insert m k v) :
    (c = (k, v) ∧ v ≠ Memory.unlisted) ∨ c ∈ m := by
  induction m with
  | nil =>
    by_cases hv : v = Memory.unlisted <;> simp_all [Memory.insert]
  | cons d rest ih =>
    obtain ⟨i, w⟩ := d
    simp only [Memory.insert] at h
    split at h
    · split at h <;> simp_all
    · split at h
      · split at h
        · exact .inr (by simp [h])
        · rcases List.mem_cons.mp h with rfl | h
          · exact .inl ⟨rfl, by assumption⟩
          · exact .inr (by simp [h])
      · rcases List.mem_cons.mp h with rfl | h
        · exact .inr (by simp)
        · exact (ih h).imp id (by simp_all)

theorem Memory.insert_rising (m : Memory) (k : Nat) (v : Byte) (h : m.Rising) : (Memory.insert m k v).Rising := by
  induction m with
  | nil => by_cases hv : v = Memory.unlisted <;> simp [Memory.insert, hv]
  | cons d rest ih =>
    obtain ⟨i, w⟩ := d
    obtain ⟨hi, hrest⟩ := List.pairwise_cons.mp h
    simp only [Memory.insert]
    split
    · next lt =>
      split
      · exact h
      · refine List.pairwise_cons.mpr ⟨fun c hc => ?_, h⟩
        rcases List.mem_cons.mp hc with rfl | hc
        · exact lt
        · exact Nat.lt_trans lt (hi c hc)
    · split
      · next eq =>
        subst eq
        split
        · exact hrest
        · exact List.pairwise_cons.mpr ⟨hi, hrest⟩
      · refine List.pairwise_cons.mpr ⟨fun c hc => ?_, ih hrest⟩
        rcases Memory.mem_insert rest k v c hc with ⟨rfl, -⟩ | hc
        · simp only; omega
        · exact hi c hc

/-- Every write keeps the canonical form. -/
theorem Memory.write_wf (m : Memory) (addr v : Byte) (h : m.wf = true) : (m.write addr v).wf = true := by
  obtain ⟨rising, listed⟩ := (Memory.wf_iff m).mp h
  refine (Memory.wf_iff _).mpr ⟨Memory.insert_rising m addr.toNat v rising, fun c hc => ?_⟩
  rcases Memory.mem_insert m addr.toNat v c hc with ⟨rfl, hv⟩ | hc
  · exact ⟨addr.isLt, hv⟩
  · exact listed c hc

/-- Reading any address after a write. -/
theorem Memory.read_write (m : Memory) (addr addr' v : Byte) (h : m.wf = true) :
    (m.write addr v).read addr' = if addr' = addr then v else m.read addr' := by
  have := Memory.lookup_insert m addr.toNat addr'.toNat v ((Memory.wf_iff m).mp h).1
  simpa [Memory.read, Memory.write, ← BitVec.toNat_inj] using this

/-- Equal reads are equal memories, so that memories compare as data. -/
theorem Memory.ext_of_wf (m m' : Memory) (h : m.wf = true) (h' : m'.wf = true)
    (reads : ∀ addr, m.read addr = m'.read addr) : m = m' := by
  have lookups : ∀ k, k < 256 → Memory.lookup m k = Memory.lookup m' k := fun k hk => by
    have := reads (BitVec.ofNat 8 k)
    simpa [Memory.read, Nat.mod_eq_of_lt hk] using this
  obtain ⟨rising, listed⟩ := (Memory.wf_iff m).mp h
  obtain ⟨rising', listed'⟩ := (Memory.wf_iff m').mp h'
  clear h h' reads
  induction m generalizing m' with
  | nil =>
    cases m' with
    | nil => rfl
    | cons c rest =>
      obtain ⟨hlt, hne⟩ := listed' c (by simp)
      exact absurd (by simpa [Memory.lookup] using (lookups c.1 hlt).symm) hne
  | cons c rest ih =>
    obtain ⟨i, w⟩ := c
    obtain ⟨hi, hrest⟩ := List.pairwise_cons.mp rising
    obtain ⟨hlt, hne⟩ := listed (i, w) (by simp)
    cases m' with
    | nil => exact absurd (by simpa [Memory.lookup] using lookups i hlt) hne
    | cons d rest' =>
      obtain ⟨j, u⟩ := d
      obtain ⟨hj, hrest'⟩ := List.pairwise_cons.mp rising'
      obtain ⟨hlt', hne'⟩ := listed' (j, u) (by simp)
      have hij : i = j := by
        rcases Nat.lt_trichotomy i j with lt | eq | lt
        · have := lookups i hlt
          rw [Memory.lookup_below ((j, u) :: rest') i (by
            intro c hc
            rcases List.mem_cons.mp hc with rfl | hc
            · exact lt
            · exact Nat.lt_trans lt (hj c hc))] at this
          exact absurd (by simpa [Memory.lookup] using this) hne
        · exact eq
        · have := lookups j hlt'
          rw [Memory.lookup_below ((i, w) :: rest) j (by
            intro c hc
            rcases List.mem_cons.mp hc with rfl | hc
            · exact lt
            · exact Nat.lt_trans lt (hi c hc))] at this
          exact absurd (by simpa [Memory.lookup] using this.symm) hne'
      subst hij
      have hwu : w = u := by simpa [Memory.lookup] using lookups i hlt
      subst hwu
      rw [ih rest' (fun k hk => ?_) hrest (fun c hc => listed c (by simp [hc])) hrest' (fun c hc => listed' c (by simp [hc]))]
      by_cases hk' : k = i
      · subst hk'
        rw [Memory.lookup_below rest k hi, Memory.lookup_below rest' k hj]
      · have := lookups k hk
        simpa [Memory.lookup, show ¬ i = k by omega] using this

end Sys2Proof.Machine
end

