-- ==== Sys2Proof/Laws/State.lean ====
section
/-! SUPPORT. One lemma per field per update of State, so that no proof unfolds a record update; and the register file's laws. -/

namespace Sys2Proof.Machine

variable (s : State)

@[simp] theorem State.setCC_a (c : CC) : (s.setCC c).a = s.a := rfl
@[simp] theorem State.setCC_b (c : CC) : (s.setCC c).b = s.b := rfl
@[simp] theorem State.setCC_x (c : CC) : (s.setCC c).x = s.x := rfl
@[simp] theorem State.setCC_y (c : CC) : (s.setCC c).y = s.y := rfl
@[simp] theorem State.setCC_sp (c : CC) : (s.setCC c).sp = s.sp := rfl
@[simp] theorem State.setCC_cc (c : CC) : (s.setCC c).cc = c := rfl
@[simp] theorem State.setCC_mem (c : CC) : (s.setCC c).mem = s.mem := rfl
@[simp] theorem State.setCC_ir (c : CC) : (s.setCC c).ir = s.ir := rfl
@[simp] theorem State.setCC_run (c : CC) : (s.setCC c).run = s.run := rfl
@[simp] theorem State.setCC_hcause (c : CC) : (s.setCC c).hcause = s.hcause := rfl
@[simp] theorem State.setCC_stream (c : CC) : (s.setCC c).stream = s.stream := rfl
@[simp] theorem State.setCC_n (c : CC) : (s.setCC c).n = s.n := rfl

@[simp] theorem State.setSP_a (v : Byte) : (s.setSP v).a = s.a := rfl
@[simp] theorem State.setSP_b (v : Byte) : (s.setSP v).b = s.b := rfl
@[simp] theorem State.setSP_x (v : Byte) : (s.setSP v).x = s.x := rfl
@[simp] theorem State.setSP_y (v : Byte) : (s.setSP v).y = s.y := rfl
@[simp] theorem State.setSP_sp (v : Byte) : (s.setSP v).sp = v := rfl
@[simp] theorem State.setSP_cc (v : Byte) : (s.setSP v).cc = s.cc := rfl
@[simp] theorem State.setSP_mem (v : Byte) : (s.setSP v).mem = s.mem := rfl
@[simp] theorem State.setSP_ir (v : Byte) : (s.setSP v).ir = s.ir := rfl
@[simp] theorem State.setSP_run (v : Byte) : (s.setSP v).run = s.run := rfl
@[simp] theorem State.setSP_hcause (v : Byte) : (s.setSP v).hcause = s.hcause := rfl
@[simp] theorem State.setSP_stream (v : Byte) : (s.setSP v).stream = s.stream := rfl
@[simp] theorem State.setSP_n (v : Byte) : (s.setSP v).n = s.n := rfl

@[simp] theorem State.store_a (addr v : Byte) : (s.store addr v).a = s.a := rfl
@[simp] theorem State.store_b (addr v : Byte) : (s.store addr v).b = s.b := rfl
@[simp] theorem State.store_x (addr v : Byte) : (s.store addr v).x = s.x := rfl
@[simp] theorem State.store_y (addr v : Byte) : (s.store addr v).y = s.y := rfl
@[simp] theorem State.store_sp (addr v : Byte) : (s.store addr v).sp = s.sp := rfl
@[simp] theorem State.store_cc (addr v : Byte) : (s.store addr v).cc = s.cc := rfl
@[simp] theorem State.store_mem (addr v : Byte) : (s.store addr v).mem = s.mem.write addr v := rfl
@[simp] theorem State.store_ir (addr v : Byte) : (s.store addr v).ir = s.ir := rfl
@[simp] theorem State.store_run (addr v : Byte) : (s.store addr v).run = s.run := rfl
@[simp] theorem State.store_hcause (addr v : Byte) : (s.store addr v).hcause = s.hcause := rfl
@[simp] theorem State.store_stream (addr v : Byte) : (s.store addr v).stream = s.stream := rfl
@[simp] theorem State.store_n (addr v : Byte) : (s.store addr v).n = s.n := rfl

@[simp] theorem State.latch_a (op : Byte) : (s.latch op).a = s.a := rfl
@[simp] theorem State.latch_b (op : Byte) : (s.latch op).b = s.b := rfl
@[simp] theorem State.latch_x (op : Byte) : (s.latch op).x = s.x := rfl
@[simp] theorem State.latch_y (op : Byte) : (s.latch op).y = s.y := rfl
@[simp] theorem State.latch_sp (op : Byte) : (s.latch op).sp = s.sp := rfl
@[simp] theorem State.latch_cc (op : Byte) : (s.latch op).cc = s.cc := rfl
@[simp] theorem State.latch_mem (op : Byte) : (s.latch op).mem = s.mem := rfl
@[simp] theorem State.latch_ir (op : Byte) : (s.latch op).ir = some op := rfl
@[simp] theorem State.latch_run (op : Byte) : (s.latch op).run = s.run := rfl
@[simp] theorem State.latch_hcause (op : Byte) : (s.latch op).hcause = s.hcause := rfl
@[simp] theorem State.latch_stream (op : Byte) : (s.latch op).stream = s.stream := rfl
@[simp] theorem State.latch_n (op : Byte) : (s.latch op).n = s.n := rfl

@[simp] theorem State.clearIR_a : s.clearIR.a = s.a := rfl
@[simp] theorem State.clearIR_b : s.clearIR.b = s.b := rfl
@[simp] theorem State.clearIR_x : s.clearIR.x = s.x := rfl
@[simp] theorem State.clearIR_y : s.clearIR.y = s.y := rfl
@[simp] theorem State.clearIR_sp : s.clearIR.sp = s.sp := rfl
@[simp] theorem State.clearIR_cc : s.clearIR.cc = s.cc := rfl
@[simp] theorem State.clearIR_mem : s.clearIR.mem = s.mem := rfl
@[simp] theorem State.clearIR_ir : s.clearIR.ir = none := rfl
@[simp] theorem State.clearIR_run : s.clearIR.run = s.run := rfl
@[simp] theorem State.clearIR_hcause : s.clearIR.hcause = s.hcause := rfl
@[simp] theorem State.clearIR_stream : s.clearIR.stream = s.stream := rfl
@[simp] theorem State.clearIR_n : s.clearIR.n = s.n := rfl

@[simp] theorem State.haltWith_a (c : HaltCause) : (s.haltWith c).a = s.a := rfl
@[simp] theorem State.haltWith_b (c : HaltCause) : (s.haltWith c).b = s.b := rfl
@[simp] theorem State.haltWith_x (c : HaltCause) : (s.haltWith c).x = s.x := rfl
@[simp] theorem State.haltWith_y (c : HaltCause) : (s.haltWith c).y = s.y := rfl
@[simp] theorem State.haltWith_sp (c : HaltCause) : (s.haltWith c).sp = s.sp := rfl
@[simp] theorem State.haltWith_cc (c : HaltCause) : (s.haltWith c).cc = s.cc := rfl
@[simp] theorem State.haltWith_mem (c : HaltCause) : (s.haltWith c).mem = s.mem := rfl
@[simp] theorem State.haltWith_ir (c : HaltCause) : (s.haltWith c).ir = s.ir := rfl
@[simp] theorem State.haltWith_run (c : HaltCause) : (s.haltWith c).run = .halted := rfl
@[simp] theorem State.haltWith_hcause (c : HaltCause) : (s.haltWith c).hcause = c := rfl
@[simp] theorem State.haltWith_stream (c : HaltCause) : (s.haltWith c).stream = s.stream := rfl
@[simp] theorem State.haltWith_n (c : HaltCause) : (s.haltWith c).n = s.n := rfl

@[simp] theorem State.advance_a : s.advance.a = s.a := rfl
@[simp] theorem State.advance_b : s.advance.b = s.b := rfl
@[simp] theorem State.advance_x : s.advance.x = s.x := rfl
@[simp] theorem State.advance_y : s.advance.y = s.y := rfl
@[simp] theorem State.advance_sp : s.advance.sp = s.sp := rfl
@[simp] theorem State.advance_cc : s.advance.cc = s.cc := rfl
@[simp] theorem State.advance_mem : s.advance.mem = s.mem := rfl
@[simp] theorem State.advance_ir : s.advance.ir = s.ir := rfl
@[simp] theorem State.advance_run : s.advance.run = s.run := rfl
@[simp] theorem State.advance_hcause : s.advance.hcause = s.hcause := rfl
@[simp] theorem State.advance_stream : s.advance.stream = s.stream := rfl
@[simp] theorem State.advance_n : s.advance.n = s.n - 1 := rfl

@[simp] theorem State.writeReg_a (r : Reg) (v : Byte) : (s.writeReg r v).a = if r = .a then v else s.a := by
  cases r <;> rfl
@[simp] theorem State.writeReg_b (r : Reg) (v : Byte) : (s.writeReg r v).b = if r = .b then v else s.b := by
  cases r <;> rfl
@[simp] theorem State.writeReg_x (r : Reg) (v : Byte) : (s.writeReg r v).x = if r = .x then v else s.x := by
  cases r <;> rfl
@[simp] theorem State.writeReg_y (r : Reg) (v : Byte) : (s.writeReg r v).y = if r = .y then v else s.y := by
  cases r <;> rfl
@[simp] theorem State.writeReg_sp (r : Reg) (v : Byte) : (s.writeReg r v).sp = s.sp := by
  cases r <;> rfl
@[simp] theorem State.writeReg_cc (r : Reg) (v : Byte) : (s.writeReg r v).cc = s.cc := by
  cases r <;> rfl
@[simp] theorem State.writeReg_mem (r : Reg) (v : Byte) : (s.writeReg r v).mem = s.mem := by
  cases r <;> rfl
@[simp] theorem State.writeReg_ir (r : Reg) (v : Byte) : (s.writeReg r v).ir = s.ir := by
  cases r <;> rfl
@[simp] theorem State.writeReg_run (r : Reg) (v : Byte) : (s.writeReg r v).run = s.run := by
  cases r <;> rfl
@[simp] theorem State.writeReg_hcause (r : Reg) (v : Byte) : (s.writeReg r v).hcause = s.hcause := by
  cases r <;> rfl
@[simp] theorem State.writeReg_stream (r : Reg) (v : Byte) : (s.writeReg r v).stream = s.stream := by
  cases r <;> rfl
@[simp] theorem State.writeReg_n (r : Reg) (v : Byte) : (s.writeReg r v).n = s.n := by
  cases r <;> rfl

@[simp] theorem State.readReg_setCC (r : Reg) (c : CC) : (s.setCC c).readReg r = s.readReg r := by
  cases r <;> rfl
@[simp] theorem State.readReg_setSP (r : Reg) (v : Byte) : (s.setSP v).readReg r = s.readReg r := by
  cases r <;> rfl
@[simp] theorem State.readReg_store (r : Reg) (addr v : Byte) : (s.store addr v).readReg r = s.readReg r := by
  cases r <;> rfl
@[simp] theorem State.readReg_latch (r : Reg) (op : Byte) : (s.latch op).readReg r = s.readReg r := by
  cases r <;> rfl
@[simp] theorem State.readReg_clearIR (r : Reg) : s.clearIR.readReg r = s.readReg r := by
  cases r <;> rfl
@[simp] theorem State.readReg_haltWith (r : Reg) (c : HaltCause) : (s.haltWith c).readReg r = s.readReg r := by
  cases r <;> rfl
@[simp] theorem State.readReg_advance (r : Reg) : s.advance.readReg r = s.readReg r := by
  cases r <;> rfl

@[simp] theorem State.readReg_writeReg_same (r : Reg) (v : Byte) : (s.writeReg r v).readReg r = v := by
  cases r <;> rfl

@[simp] theorem State.readReg_writeReg_other (r r' : Reg) (v : Byte) (h : r ≠ r') :
    (s.writeReg r v).readReg r' = s.readReg r' := by
  cases r <;> cases r' <;> first | rfl | exact absurd rfl h

@[simp] theorem State.writeReg_readReg (r : Reg) : s.writeReg r (s.readReg r) = s := by
  cases r <;> rfl

@[simp] theorem State.writeReg_writeReg_same (r : Reg) (v w : Byte) : (s.writeReg r v).writeReg r w = s.writeReg r w := by
  cases r <;> rfl

theorem State.writeReg_writeReg_comm (r r' : Reg) (v w : Byte) (h : r ≠ r') :
    (s.writeReg r v).writeReg r' w = (s.writeReg r' w).writeReg r v := by
  cases r <;> cases r' <;> first | rfl | exact absurd rfl h

theorem State.writeReg_setCC (r : Reg) (w : Byte) (c : CC) : ((s.writeReg r w).setCC c) = (s.setCC c).writeReg r w := by
  cases r <;> rfl
theorem State.writeReg_setSP (r : Reg) (w : Byte) (v : Byte) : ((s.writeReg r w).setSP v) = (s.setSP v).writeReg r w := by
  cases r <;> rfl
theorem State.writeReg_store (r : Reg) (w : Byte) (addr v : Byte) : ((s.writeReg r w).store addr v) = (s.store addr v).writeReg r w := by
  cases r <;> rfl
theorem State.writeReg_latch (r : Reg) (w : Byte) (op : Byte) : ((s.writeReg r w).latch op) = (s.latch op).writeReg r w := by
  cases r <;> rfl
theorem State.writeReg_clearIR (r : Reg) (w : Byte) : ((s.writeReg r w).clearIR) = (s.clearIR).writeReg r w := by
  cases r <;> rfl
theorem State.writeReg_haltWith (r : Reg) (w : Byte) (c : HaltCause) : ((s.writeReg r w).haltWith c) = (s.haltWith c).writeReg r w := by
  cases r <;> rfl
theorem State.writeReg_advance (r : Reg) (w : Byte) : ((s.writeReg r w).advance) = (s.advance).writeReg r w := by
  cases r <;> rfl

end Sys2Proof.Machine
end

