-- ==== Sys2Proof/Laws/Handlers.lean ====
section
/-! SUPPORT. What each shared operation can do, said once: the operand fetch, the handlers, the guards. -/

namespace Sys2Proof.Machine

theorem State.nextElement_isSome (s : State) (pos : 0 < s.n) (h : s.inBounds) : ∃ e, s.nextElement = some e := by
  have : s.n - 1 < s.stream.length := by unfold State.inBounds at h; omega
  exact ⟨_, List.getElem?_eq_getElem this⟩

theorem State.inBounds_of_nextElement (s : State) (e : Element) (h : s.nextElement = some e) : s.inBounds := by
  obtain ⟨hlt, -⟩ := List.getElem?_eq_some_iff.mp h
  unfold State.inBounds; omega

/-- The next element heads the elements still to be consumed. -/
theorem State.pending_of_nextElement (s : State) (e : Element) (pos : 0 < s.n) (h : s.nextElement = some e) :
    s.pending = e :: s.advance.pending := by
  obtain ⟨k, hk⟩ : ∃ k, s.n = k + 1 := ⟨s.n - 1, by omega⟩
  have he : s.stream[k]? = some e := by simpa [State.nextElement, hk] using h
  simp [State.pending, State.advance, hk, List.take_add_one, he]

@[simp] theorem fetchOperand_empty (s : State) (h : s.n = 0) : fetchOperand s = .next (0, s) := by
  simp [fetchOperand, h]

theorem fetchOperand_element (s : State) (e : Element) (pos : 0 < s.n) (h : s.nextElement = some e) :
    fetchOperand s = .next (operandValue e, s.advance) := by
  simp [fetchOperand, show ¬ s.n = 0 by omega, h]

/-- What an operand fetch that answers can have done. -/
theorem fetchOperand_next (s s' : State) (arg : Int) (h : fetchOperand s = .next (arg, s')) :
    (s.n = 0 ∧ arg = 0 ∧ s' = s) ∨
      ∃ e, 0 < s.n ∧ s.nextElement = some e ∧ arg = operandValue e ∧ s' = s.advance := by
  by_cases hn : s.n = 0
  · rw [fetchOperand_empty s hn] at h
    cases h
    exact .inl ⟨hn, rfl, rfl⟩
  · cases he : s.nextElement with
    | none => simp [fetchOperand, hn, he] at h
    | some e =>
      rw [fetchOperand_element s e (by omega) he] at h
      cases h
      exact .inr ⟨e, by omega, rfl, rfl, rfl⟩

theorem fetchOperand_inBounds (s : State) (h : s.inBounds) : ∃ arg s', fetchOperand s = .next (arg, s') := by
  by_cases hn : s.n = 0
  · exact ⟨_, _, fetchOperand_empty s hn⟩
  · obtain ⟨e, he⟩ := s.nextElement_isSome (by omega) h
    exact ⟨_, _, fetchOperand_element s e (by omega) he⟩

/-- The operand fetch changes N alone, and from an empty stream not even that. -/
theorem fetchOperand_state (s s' : State) (arg : Int) (h : fetchOperand s = .next (arg, s')) : s' = s.advance := by
  rcases fetchOperand_next s s' arg h with ⟨h0, -, rfl⟩ | ⟨e, -, -, -, rfl⟩
  · rw [State.advance, show s'.n - 1 = s'.n by omega]
  · rfl

theorem withOperand_of_fetch (s s' : State) (arg : Int) (handler : Int → State → State)
    (h : fetchOperand s = .next (arg, s')) : withOperand s handler = .next (handler arg s') := by
  simp [withOperand, h]

theorem withOperand_next (s t : State) (handler : Int → State → State) (h : withOperand s handler = .next t) :
    ∃ arg s', fetchOperand s = .next (arg, s') ∧ t = handler arg s' := by
  unfold withOperand at h
  split at h
  · next arg s' hf =>
    cases h
    exact ⟨arg, s', hf, rfl⟩
  · cases h
  · cases h

/-- Either handler rejects its result, or writes one with its condition code. -/
theorem addOperand_cases (r : Reg) (arg : Int) (s : State) :
    addOperand r arg s = s.setCC .overflow ∨ ∃ res, addOperand r arg s = (s.writeReg r res).setCC (resultCC res) := by
  unfold addOperand
  split
  · exact .inl rfl
  · exact .inr ⟨_, rfl⟩

theorem subOperand_cases (r : Reg) (arg : Int) (s : State) :
    subOperand r arg s = s.setCC .overflow ∨ ∃ res, subOperand r arg s = (s.writeReg r res).setCC (resultCC res) := by
  unfold subOperand
  split
  · exact .inl rfl
  · exact .inr ⟨_, rfl⟩

@[simp] theorem addRejected_iff (reg arg : Int) : addRejected reg arg = true ↔ 127 - reg < arg := decide_eq_true_iff

@[simp] theorem subRejected_iff (reg arg : Int) : subRejected reg arg = true ↔ reg < arg := decide_eq_true_iff

/-- A result in range is held as it is; one below or above it wraps by 256. -/
theorem bits8_inRange (i : Int) (low : -128 ≤ i) (high : i ≤ 127) : (bits8 i).toInt = i := by
  simp only [bits8, BitVec.toInt_ofInt, Int.bmod]
  omega

theorem bits8_below (i : Int) (low : -384 ≤ i) (high : i ≤ -129) : (bits8 i).toInt = i + 256 := by
  simp only [bits8, BitVec.toInt_ofInt, Int.bmod]
  omega

theorem bits8_above (i : Int) (low : 128 ≤ i) (high : i ≤ 383) : (bits8 i).toInt = i - 256 := by
  simp only [bits8, BitVec.toInt_ofInt, Int.bmod]
  omega

@[simp] theorem bits8_sint8 (v : Byte) : bits8 (sint8 v) = v := by
  simp [bits8, sint8]

theorem sint8_range (v : Byte) : -128 ≤ sint8 v ∧ sint8 v ≤ 127 := by
  revert v; decide

theorem resultCC_cases (res : Byte) : resultCC res = .zero ∨ resultCC res = .default := by
  unfold resultCC
  split <;> simp

/-- A push on a full stack drops its value; any other stores at SP and decrements SP. -/
theorem pushHandler_full (v : Byte) (s : State) (h : s.sp = 0#8) : pushHandler v s = s :=
  if_pos h

theorem pushHandler_stores (v : Byte) (s : State) (h : s.sp ≠ 0#8) :
    pushHandler v s = (s.store s.sp v).setSP (s.sp - 1#8) :=
  if_neg h

/-- A pop from an empty stack gives 0; any other increments SP and loads from there. -/
theorem popHandler_empty (r : Reg) (s : State) (h : s.sp = 255#8) : popHandler r s = s.writeReg r 0#8 :=
  if_pos h

theorem popHandler_loads (r : Reg) (s : State) (h : s.sp ≠ 255#8) :
    popHandler r s = (s.setSP (s.sp + 1#8)).writeReg r (s.load (s.sp + 1#8)) :=
  if_neg h

end Sys2Proof.Machine
end

