-- ==== Sys2Proof/Laws/PerInstr.lean ====
section
/-! SUPPORT. The per-instruction family Encoding: what the encoding of an instruction says of it, one lemma a constructor. -/

namespace Sys2Proof.Laws.Encoding

/-- The instruction's number is one of 0..24, its element is that number below tag 1 (30_encoding.md R62, R63), and its form
is the one R65 reads off the number. -/
def Statement (i : Instr) : Prop :=
  (opcodeNumber i).toNat < 25 ∧ (encode i).toNat = 256 + (opcodeNumber i).toNat ∧
    Element.tag (encode i) = true ∧ Element.payload (encode i) = opcodeNumber i ∧
      (i.form = .opi ↔
        (opcodeNumber i).toNat = 0 ∨ (9 ≤ (opcodeNumber i).toNat ∧ (opcodeNumber i).toNat ≤ 16))

theorem pushi : Statement .pushi := by unfold Statement; decide

theorem pusha : Statement .pusha := by unfold Statement; decide

theorem pushb : Statement .pushb := by unfold Statement; decide

theorem pushx : Statement .pushx := by unfold Statement; decide

theorem pushy : Statement .pushy := by unfold Statement; decide

theorem popa : Statement .popa := by unfold Statement; decide

theorem popb : Statement .popb := by unfold Statement; decide

theorem popx : Statement .popx := by unfold Statement; decide

theorem popy : Statement .popy := by unfold Statement; decide

theorem adda : Statement .adda := by unfold Statement; decide

theorem addb : Statement .addb := by unfold Statement; decide

theorem addx : Statement .addx := by unfold Statement; decide

theorem addy : Statement .addy := by unfold Statement; decide

theorem suba : Statement .suba := by unfold Statement; decide

theorem subb : Statement .subb := by unfold Statement; decide

theorem subx : Statement .subx := by unfold Statement; decide

theorem suby : Statement .suby := by unfold Statement; decide

theorem brz : Statement .brz := by unfold Statement; decide

theorem brn : Statement .brn := by unfold Statement; decide

theorem bro : Statement .bro := by unfold Statement; decide

theorem seta : Statement .seta := by unfold Statement; decide

theorem setb : Statement .setb := by unfold Statement; decide

theorem setx : Statement .setx := by unfold Statement; decide

theorem sety : Statement .sety := by unfold Statement; decide

theorem halt : Statement .halt := by unfold Statement; decide

end Sys2Proof.Laws.Encoding
end

