-- ==== Sys2Proof/Laws/Step.lean ====
section
/-! SUPPORT. What a meaning and what a step can do, said once: every claim about all instructions or all steps follows from
these two case analyses. -/

namespace Sys2Proof.Machine

/-- The effects an instruction can have, family by family. -/
inductive Effect : Instr → State → State → Prop where
  | add (i : Instr) (r : Reg) (s s' : State) (arg : Int) : i.family = .add → i.target = some r →
      fetchOperand s = .next (arg, s') → Effect i s (addOperand r arg s')
  | sub (i : Instr) (r : Reg) (s s' : State) (arg : Int) : i.family = .sub → i.target = some r →
      fetchOperand s = .next (arg, s') → Effect i s (subOperand r arg s')
  | pushImmediate (s s' : State) (arg : Int) :
      fetchOperand s = .next (arg, s') → Effect .pushi s (pushHandler (bits8 arg) s')
  | pushRegister (i : Instr) (r : Reg) (s : State) : i.family = .pushr → i.target = some r →
      Effect i s (pushHandler (s.readReg r) s)
  | pop (i : Instr) (r : Reg) (s : State) : i.family = .popr → i.target = some r → Effect i s (popHandler r s)
  | halt (s : State) : Effect .halt s (s.haltWith .halt)
  | unimplemented (i : Instr) (s : State) : i.family = .unimpl → Effect i s (s.haltWith .unimpl)

/-- What exec can have done where it answers a next state. -/
theorem exec_effect (i : Instr) (s t : State) (h : exec i s = .next t) : Effect i s t := by
  have ofAdd : ∀ r, i.family = .add → i.target = some r → addHandler r s = .next t → Effect i s t := by
    intro r hf ht h
    obtain ⟨arg, s', hs, rfl⟩ := withOperand_next s t _ h
    exact .add i r s s' arg hf ht hs
  have ofSub : ∀ r, i.family = .sub → i.target = some r → subHandler r s = .next t → Effect i s t := by
    intro r hf ht h
    obtain ⟨arg, s', hs, rfl⟩ := withOperand_next s t _ h
    exact .sub i r s s' arg hf ht hs
  cases i with
  | pushi =>
    obtain ⟨arg, s', hs, rfl⟩ := withOperand_next s t _ h
    exact .pushImmediate s s' arg hs
  | pusha => cases h; exact .pushRegister _ .a s rfl rfl
  | pushb => cases h; exact .pushRegister _ .b s rfl rfl
  | pushx => cases h; exact .pushRegister _ .x s rfl rfl
  | pushy => cases h; exact .pushRegister _ .y s rfl rfl
  | popa => cases h; exact .pop _ .a s rfl rfl
  | popb => cases h; exact .pop _ .b s rfl rfl
  | popx => cases h; exact .pop _ .x s rfl rfl
  | popy => cases h; exact .pop _ .y s rfl rfl
  | adda => exact ofAdd .a rfl rfl h
  | addb => exact ofAdd .b rfl rfl h
  | addx => exact ofAdd .x rfl rfl h
  | addy => exact ofAdd .y rfl rfl h
  | suba => exact ofSub .a rfl rfl h
  | subb => exact ofSub .b rfl rfl h
  | subx => exact ofSub .x rfl rfl h
  | suby => exact ofSub .y rfl rfl h
  | halt => cases h; exact .halt s
  | brz => cases h; exact .unimplemented _ s rfl
  | brn => cases h; exact .unimplemented _ s rfl
  | bro => cases h; exact .unimplemented _ s rfl
  | seta => cases h; exact .unimplemented _ s rfl
  | setb => cases h; exact .unimplemented _ s rfl
  | setx => cases h; exact .unimplemented _ s rfl
  | sety => cases h; exact .unimplemented _ s rfl

theorem fetch_halted (s : State) (h : s.run = .halted) : fetch s = .next (.ended s) := by
  simp [fetch, h]

theorem fetch_empty (s : State) (h : s.run = .running) (hn : s.n = 0) :
    fetch s = .next (.ended (s.clearIR.haltWith .eos)) := by
  simp [fetch, h, hn]

theorem fetch_element (s : State) (e : Element) (h : s.fetches e) : fetch s = .next (afterConsume e s.advance) := by
  obtain ⟨hr, hn, he⟩ := h
  simp [fetch, hr, show ¬ s.n = 0 by omega, he]

/-- The three ways a running core's fetch can go. -/
theorem fetch_cases (s : State) (h : s.run = .running) :
    s.n = 0 ∨ (∃ e, s.fetches e) ∨ fetch s = .fault .streamOverrun := by
  by_cases hn : s.n = 0
  · exact .inl hn
  · cases he : s.nextElement with
    | none => exact .inr (.inr (by simp [fetch, h, hn, he]))
    | some e => exact .inr (.inl ⟨e, h, by omega, he⟩)

/-- What a step can have done where it answers a next state. -/
theorem step_cases (s t : State) (h : step s = .next t) :
    (s.run = .halted ∧ t = s) ∨
      (s.run = .running ∧ s.n = 0 ∧ t = s.clearIR.haltWith .eos) ∨
        ∃ e, s.fetches e ∧
          ((decode e = .stray e.payload ∧ t = s.advance) ∨
            (decode e = .reserved e.payload ∧ t = (s.advance.latch e.payload).haltWith .illegal) ∨
              ∃ i, decode e = .instr i ∧ exec i (s.advance.latch e.payload) = .next t) := by
  cases hr : s.run with
  | halted =>
    rw [step, fetch_halted s hr] at h
    cases h
    exact .inl ⟨rfl, rfl⟩
  | running =>
    rcases fetch_cases s hr with hn | ⟨e, he⟩ | hf
    · rw [step, fetch_empty s hr hn] at h
      cases h
      exact .inr (.inl ⟨rfl, hn, rfl⟩)
    · refine .inr (.inr ⟨e, he, ?_⟩)
      rw [step, fetch_element s e he, afterConsume] at h
      rcases decode_cases e with ⟨-, hd⟩ | ⟨-, -, hd⟩ | ⟨i, -, -, hd⟩ <;> rw [hd] at h
      · cases h
        exact .inl ⟨hd, rfl⟩
      · cases h
        exact .inr (.inl ⟨hd, rfl⟩)
      · exact .inr (.inr ⟨i, hd, h⟩)
    · rw [step, hf] at h
      cases h

/-- A run of k + 1 steps is one step and a run of k. -/
theorem core_run_of_step (k : Nat) (s t : State) (h : step s = .next t) :
    Host.Core.run Sys2Proof.core (k + 1) s = Host.Core.run Sys2Proof.core k t := by
  have hstep : Sys2Proof.core.step s = .next t := h
  simp only [Host.Core.run, hstep]

end Sys2Proof.Machine
end

