-- ==== Sys2Proof/Tests/Slice0.lean ====
section
/-! SUPPORT. Small tests: words written out from the spec's encodings, one-step tests from the worked examples and vectors
of 95_test_vectors.md, an ill-formed term for each check of WellFormed, and a witness for the hypotheses of each statement. -/

namespace Sys2Proof.Tests

open Sys2Proof Sys2Proof.Machine

/-- The next state of an outcome, where there is one. -/
def nextOf : Result → Option State
  | .next s => some s
  | .fault _ => none
  | .refused _ => none

/-- What a test looks at after one step. -/
def see {α : Type} (look : State → α) (s : State) : Option α := (nextOf (step s)).map look

/-! ### Ill-formed terms are refused -/

theorem test_reserved_number_24_is_illFormed : Parcel.wf (.reserved 24) = false := by decide

theorem test_twoElement_instruction_alone_is_illFormed : Parcel.wf (.op .adda) = false := by decide

theorem test_oneElement_instruction_with_operand_is_illFormed : Parcel.wf (.opi .pusha 5) = false := by decide

theorem test_oneElement_instruction_with_lost_opcode_is_illFormed : Parcel.wf (.opiLost .halt 24) = false := by decide

theorem test_oneElement_instruction_cut_short_is_illFormed : Parcel.wf (.opiShort .brz) = false := by decide

theorem test_cut_short_before_the_end_is_illFormed : Parcel.listWf [.opiShort .adda, .stray 0] = false := by decide

theorem test_stream_beyond_capacity_is_refused :
    streamFits (List.replicate (Config.lMax + 1) 0) = false := by simp [streamFits]

/-! ### Words written out from the spec (30_encoding.md R60, R63) -/

theorem test_decode_words :
    [0b1_0000_0000#9, 0b1_0000_0001#9, 0b1_0000_1000#9, 0b1_0000_1001#9, 0b1_0001_0000#9, 0b1_0001_0001#9,
      0b1_0001_0111#9, 0b1_0001_1000#9].map decode =
    [.instr .pushi, .instr .pusha, .instr .popy, .instr .adda, .instr .suby, .instr .brz, .instr .sety,
      .instr .halt] := by decide

theorem test_decode_operand_minus_five : decode 0b0_1111_1011#9 = .stray 0xFB ∧ sint8 0xFB = -5 := by decide

theorem test_decode_first_and_last_reserved :
    decode 0b1_0001_1001#9 = .reserved 25 ∧ decode 0b1_1111_1111#9 = .reserved 255 := by decide

theorem test_decodeTableWord_rows : (List.range 25).map (fun k => (decodeTableWord 16 (256 + k)).map opcodeNumber) =
    (List.range 25).map (fun k => some (BitVec.ofNat 8 k)) := by decide

theorem test_decodeTableWord_refuses :
    decodeTableWord 16 0x119 = none ∧ decodeTableWord 16 0x018 = none := by decide

theorem test_withFetchWord_runs_first_after_reset : see (fun t => (t.ir, t.cc, t.n)) (State.reset.withFetchWord 16 0x109) =
    some (some 9, .zero, 0) := by decide

/-! ### One step, from 95_test_vectors.md -/

/-- W2. -/
theorem test_adda_rejects_above_127 :
    see (fun t => (t.a, t.cc)) { constructed [0x001, 0x109] with a := 127 } = some (127, .overflow) := by decide

/-- A10. -/
theorem test_adda_wraps_to_zero :
    see (fun t => (t.a, t.cc)) { constructed [0x080, 0x109] with a := 0x80 } = some (0, .zero) := by decide

/-- W4. -/
theorem test_addb_plain :
    see (fun t => (t.b, t.cc, t.ir)) { constructed [0x016, 0x10A] with b := 20 } =
      some (42, .default, some 10) := by decide

/-- A9, for X. -/
theorem test_addx_wraps_below :
    see (fun t => (t.x, t.cc)) { constructed [0x0FF, 0x10B] with x := 0x80 } = some (127, .default) := by decide

/-- R105's example. -/
theorem test_addy_zero :
    see (fun t => (t.y, t.cc)) { constructed [0x001, 0x10C] with y := 0xFF } = some (0, .zero) := by decide

/-- A19: an opcode element in the operand position is lost. -/
theorem test_adda_mismatch :
    see (fun t => (t.a, t.cc, t.n)) { constructed [0x118, 0x109] with a := 9 } = some (9, .default, 0) := by decide

/-- R106's example. -/
theorem test_suba_zero :
    see (fun t => (t.a, t.cc)) { constructed [0x00A, 0x10D] with a := 10 } = some (0, .zero) := by decide

/-- S7. -/
theorem test_subb_wraps_above :
    see (fun t => (t.b, t.cc)) { constructed [0x0FF, 0x10E] with b := 127 } = some (0x80, .default) := by decide

/-- R108's example. -/
theorem test_subx_negative_operand :
    see (fun t => (t.x, t.cc)) { constructed [0x0FD, 0x10F] with x := 5 } = some (8, .default) := by decide

/-- R109's example: the comparison is signed. -/
theorem test_suby_rejects_negative_register :
    see (fun t => (t.y, t.cc)) { constructed [0x003, 0x110] with y := 0xFB } = some (0xFB, .overflow) := by decide

/-- W7. -/
theorem test_pushi_from_reset :
    see (fun t => (t.mem, t.sp, t.n)) (constructed [0x00A, 0x100]) = some ([(255, 10)], 254, 0) := by decide

/-- P2. -/
theorem test_pushi_full_consumes_operand :
    see (fun t => (t.mem, t.sp, t.n)) { constructed [0x005, 0x100] with sp := 0 } = some ([], 0, 0) := by decide

/-- P4. -/
theorem test_pusha_stores_pattern :
    see (fun t => (t.mem, t.sp, t.a)) { constructed [0x101] with a := 0xFD } = some ([(255, 0xFD)], 254, 0xFD) := by decide

/-- R134's example. -/
theorem test_pushb :
    see (fun t => (t.mem, t.sp)) { constructed [0x102] with b := 7, sp := 254 } = some ([(254, 7)], 253) := by decide

/-- R135's example: the last free cell. -/
theorem test_pushx_last_cell :
    see (fun t => (t.mem, t.sp)) { constructed [0x103] with x := 127, sp := 1 } = some ([(1, 127)], 0) := by decide

/-- P7. -/
theorem test_pushy_full :
    see (fun t => (t.mem, t.sp)) { constructed [0x104] with y := 9, sp := 0 } = some ([], 0) := by decide

/-- O2. -/
theorem test_popa_does_not_clear :
    see (fun t => (t.a, t.sp, t.mem)) { constructed [0x105] with sp := 254, mem := [(255, 10)] } =
      some (10, 255, [(255, 10)]) := by decide

/-- O1. -/
theorem test_popb_empty :
    see (fun t => (t.b, t.sp)) { constructed [0x106] with b := 5 } = some (0, 255) := by decide

/-- O3. -/
theorem test_popx_from_full :
    see (fun t => (t.x, t.sp)) { constructed [0x107] with sp := 0, mem := [(1, 0x80)] } = some (0x80, 1) := by decide

/-- O4. -/
theorem test_popy_keeps_cc :
    see (fun t => (t.y, t.cc)) { constructed [0x108] with cc := .overflow, y := 3 } = some (0, .overflow) := by decide

/-- D14 and W11: what follows HALT is not consumed. -/
theorem test_halt : see (fun t => (t.run, t.hcause, t.ir, t.n, t.a)) (constructed [0x001, 0x109, 0x118]) =
    some (.halted, .halt, some 24, 2, 0) := by decide

/-- D4. -/
theorem test_brz_halts :
    see (fun t => (t.run, t.hcause, t.ir, t.n, t.cc)) { constructed [0x118, 0x111] with cc := .overflow } =
      some (.halted, .unimpl, some 17, 1, .overflow) := by decide

/-- D5. -/
theorem test_brn_halts :
    see (fun t => (t.run, t.hcause, t.ir, t.n, t.cc)) { constructed [0x118, 0x112] with cc := .overflow } =
      some (.halted, .unimpl, some 18, 1, .overflow) := by decide

/-- R92's example, with CC = OVERFLOW. -/
theorem test_bro_halts :
    see (fun t => (t.run, t.hcause, t.ir, t.n, t.cc)) { constructed [0x118, 0x113] with cc := .overflow } =
      some (.halted, .unimpl, some 19, 1, .overflow) := by decide

/-- D7. -/
theorem test_seta_halts :
    see (fun t => (t.run, t.hcause, t.ir, t.n, t.a)) (constructed [0x005, 0x114]) =
      some (.halted, .unimpl, some 20, 1, 0) := by decide

/-- D8. -/
theorem test_setb_halts :
    see (fun t => (t.run, t.hcause, t.ir, t.n, t.b)) (constructed [0x07F, 0x115]) =
      some (.halted, .unimpl, some 21, 1, 0) := by decide

/-- D9. -/
theorem test_setx_halts :
    see (fun t => (t.run, t.hcause, t.ir, t.n, t.x)) (constructed [0x080, 0x116]) =
      some (.halted, .unimpl, some 22, 1, 0) := by decide

/-- D10. -/
theorem test_sety_halts :
    see (fun t => (t.run, t.hcause, t.ir, t.n, t.y)) (constructed [0x001, 0x117]) =
      some (.halted, .unimpl, some 23, 1, 0) := by decide

/-- D1. -/
theorem test_empty_stream : see (fun t => (t.run, t.hcause, t.ir, t.n)) { State.reset with ir := some 9 } =
    some (.halted, .eos, none, 0) := by decide

/-- D3, first step. -/
theorem test_stray_operand : see (fun t => (t.run, t.ir, t.n)) (constructed [0x007]) = some (.running, none, 0) := by decide

/-- D11. -/
theorem test_reserved_opcode : see (fun t => (t.run, t.hcause, t.ir)) (constructed [0x1FF]) =
    some (.halted, .illegal, some 255) := by decide

/-! ### The hypotheses of the statements can be met

One theorem a statement, with a witness for each clause, at a boundary where the clause has a range. -/

theorem test_witness_ReservedNumbersNameNoInstruction : 25 ≤ (25 : Byte).toNat ∧ ¬ 25 ≤ (24 : Byte).toNat := by decide

theorem test_witness_DecodeEncodeOneElement : decode 0x118#9 = .instr .halt := by decide

theorem test_witness_ParcelsOfEncodedParcels : Parcel.listWf
    [.stray 255, .reserved 25, .op .halt, .opi .pushi 128, .opiLost .suby 24, .opiShort .adda] = true := by decide

theorem test_witness_OneStepConsumesOneParcel :
    (constructed [0x005, 0x100]).run = .running ∧ (constructed [0x005, 0x100]).inBounds ∧
      parcels (constructed [0x005, 0x100]).pending = [.opi .pushi 5] := by
  unfold State.inBounds; decide

theorem test_witness_HaltedCoreKeepsItsState : (State.reset.haltWith .halt).run = .halted := rfl

theorem test_witness_EmptyStreamFetchHalts : State.reset.run = .running ∧ State.reset.n = 0 := by decide

theorem test_witness_StrayOperandIsDiscarded :
    (constructed [0x007]).fetches (operandElement 7) ∧ (constructed [0x007]).n = 1 := by
  unfold State.fetches; decide

theorem test_witness_ReservedOpcodeHaltsIllegal :
    (constructed [0x119]).fetches (opcodeElement 25) ∧ (constructed [0x1FF]).fetches (opcodeElement 255) := by
  unfold State.fetches; decide

theorem test_witness_SafetyIsLostOnlyOnReservedOpcodes :
    (constructed [0x119]).safe ∧ (∃ t, step (constructed [0x119]) = .next t) ∧
      (constructed [0x119]).fetches (opcodeElement 25) := by
  unfold State.safe State.fetches
  exact ⟨by decide, ⟨_, rfl⟩, by decide⟩

theorem test_witness_StepRunsDecodedInstruction :
    (constructed [0x110]).fetches 0x110#9 ∧ decode 0x110#9 = .instr .suby := by
  unfold State.fetches; decide

theorem test_witness_IRHoldsTheLastOpcodeFetched :
    (∃ t, (constructed [0x1FF]).fetches (opcodeElement 255) ∧ step (constructed [0x1FF]) = .next t) ∧
      (∃ t, (constructed [0x007]).fetches (operandElement 7) ∧ step (constructed [0x007]) = .next t) ∧
        (∃ t, State.reset.n = 0 ∧ step State.reset = .next t) ∧
          ∃ t, step (State.reset.haltWith .eos) = .next t := by
  unfold State.fetches
  exact ⟨⟨_, by decide, rfl⟩, ⟨_, by decide, rfl⟩, ⟨_, rfl, rfl⟩, ⟨_, rfl⟩⟩

theorem test_witness_ElementsAreConsumedFromTheTail :
    (constructed [0x005, 0x100]).fetches 0x100#9 ∧
      (∃ arg s', 0 < (constructed [0x005]).n ∧ fetchOperand (constructed [0x005]) = .next (arg, s')) ∧
        ∃ t, (constructed [0x005, 0x100]).inBounds ∧ step (constructed [0x005, 0x100]) = .next t := by
  unfold State.fetches State.inBounds
  exact ⟨by decide, ⟨_, _, by decide, rfl⟩, ⟨_, by decide, rfl⟩⟩

theorem test_witness_OperandFetchForms :
    State.reset.n = 0 ∧ (constructed [0x080]).nextElement = some (operandElement 128) ∧
      (constructed [0x118]).nextElement = some (opcodeElement 24) ∧
        { State.reset with n := 1 }.stream.length < { State.reset with n := 1 }.n := by decide

theorem test_witness_HaltStopsTheCore :
    (constructed [0x118]).fetches 0x118#9 ∧ Instr.form .pushi = .opi ∧
      (constructed [0x118]).nextElement = some 0x118#9 := by
  unfold State.fetches; decide

theorem test_witness_BranchesHaltAsUnimplemented :
    (constructed [0x111]).fetches 0x111#9 ∧ (constructed [0x112]).fetches 0x112#9 ∧
      (constructed [0x113]).fetches 0x113#9 := by
  unfold State.fetches; decide

theorem test_witness_SetsHaltAsUnimplemented :
    (constructed [0x114]).fetches 0x114#9 ∧ (constructed [0x115]).fetches 0x115#9 ∧
      (constructed [0x116]).fetches 0x116#9 ∧ (constructed [0x117]).fetches 0x117#9 := by
  unfold State.fetches; decide

/-- The signed value of A plus and minus the operand fetched next, from a state with A = `reg` and that operand. -/
def sumAndDifference (reg operand : Byte) : Option (Int × Int) :=
  match fetchOperand { constructed [operandElement operand] with a := reg } with
  | .next (arg, _) => some ((State.readReg { State.reset with a := reg } .a).toInt + arg, reg.toInt - arg)
  | .fault _ => none
  | .refused _ => none

/-- Each row of the add table at its two ends. -/
theorem test_witness_AddOutcomes :
    [(127, 1), (127, 127), (0, 0), (0x80, 0), (127, 0), (0x80, 0xFF), (0x80, 0x81), (0x80, 0x80)].map
      (fun p => (sumAndDifference p.1 p.2).map Prod.fst) =
    [some 128, some 254, some 0, some (-128), some 127, some (-129), some (-255), some (-256)] := by decide

/-- Each row of the subtract table at its two ends. -/
theorem test_witness_SubOutcomes :
    [(0, 1), (0x80, 127), (5, 5), (1, 0), (127, 0), (127, 0xFF), (127, 0x80)].map
      (fun p => (sumAndDifference p.1 p.2).map Prod.snd) =
    [some (-1), some (-255), some 0, some 1, some 127, some 128, some 255] := by decide

theorem test_witness_OperandsAreSignedBytes :
    ∃ s', fetchOperand (constructed [0x080]) = .next (-128, s') := ⟨_, rfl⟩

theorem test_witness_OperandZeroOutcomes :
    (∃ s', fetchOperand (constructed [0x000]) = .next (0, s')) ∧
      (∃ s', fetchOperand (constructed [0x118]) = .next (0, s')) ∧ ∃ s', fetchOperand State.reset = .next (0, s') :=
  ⟨⟨_, rfl⟩, ⟨_, rfl⟩, ⟨_, rfl⟩⟩

theorem test_witness_ArithmeticFrame :
    (∃ t, exec .adda (constructed [0x001]) = .next t) ∧ ∃ t, exec .suby (constructed [0x001]) = .next t :=
  ⟨⟨_, rfl⟩, ⟨_, rfl⟩⟩

theorem test_witness_PushRegisterStoresAtSP :
    (constructed [0x101]).fetches 0x101#9 ∧ (constructed [0x102]).fetches 0x102#9 ∧
      (constructed [0x103]).fetches 0x103#9 ∧ { constructed [0x104] with sp := 0 }.fetches 0x104#9 := by
  unfold State.fetches; decide

theorem test_witness_PushImmediateStoresItsOperand :
    ∃ s', fetchOperand (constructed [0x07F]) = .next (127, s') := ⟨_, rfl⟩

theorem test_witness_PopLoadsAboveSP :
    (constructed [0x105]).fetches 0x105#9 ∧ (constructed [0x106]).fetches 0x106#9 ∧
      (constructed [0x107]).fetches 0x107#9 ∧ { constructed [0x108] with sp := 254 }.fetches 0x108#9 := by
  unfold State.fetches; decide

theorem test_witness_StackFrame :
    (∃ t, State.reset.mem.wf = true ∧ exec .pushi (constructed [0x001]) = .next t) ∧
      (∃ t, { State.reset with sp := 0 }.mem.wf = true ∧ exec .pushb { State.reset with sp := 0 } = .next t) ∧
        ∃ t, exec .popa State.reset = .next t :=
  ⟨⟨_, rfl, rfl⟩, ⟨_, rfl, rfl⟩, ⟨_, rfl⟩⟩

theorem test_witness_PushedValueIsOnTop :
    ({ State.reset with sp := 1 }.mem.wf = true ∧ { State.reset with sp := 1 }.sp ≠ 0#8) ∧
      ∃ s', { constructed [0x080] with sp := 1 }.mem.wf = true ∧ { constructed [0x080] with sp := 1 }.sp ≠ 0#8 ∧
        fetchOperand { constructed [0x080] with sp := 1 } = .next (-128, s') :=
  ⟨by decide, ⟨_, rfl, by decide, rfl⟩⟩

theorem test_witness_StackBoundaries :
    State.reset.sp = 255#8 ∧ { State.reset with sp := 0 }.sp = 0#8 ∧ { State.reset with sp := 0 }.inBounds := by
  unfold State.inBounds; decide

theorem test_witness_PushThenPopRoundTrip :
    (State.reset.mem.wf = true ∧ State.reset.sp ≠ 0#8) ∧
      ({ State.reset with sp := 1 }.mem.wf = true ∧ { State.reset with sp := 1 }.sp ≠ 0#8) ∧
        ({ State.reset with sp := 0 }.mem.wf = true ∧ { State.reset with sp := 0 }.sp = 0#8) := by decide

theorem test_witness_LastInFirstOut :
    { State.reset with sp := 3 }.mem.wf = true ∧ [1, 2, 3].length ≤ { State.reset with sp := 3 }.sp.toNat := by decide

theorem test_witness_MismatchComesBeforeTheHandlersTest :
    0 < { constructed [0x118] with sp := 0, x := 0xFF }.n ∧
      { constructed [0x118] with sp := 0, x := 0xFF }.nextElement = some (opcodeElement 24) ∧
        { constructed [0x118] with sp := 0, x := 0xFF }.sp = 0#8 ∧
          ({ constructed [0x118] with sp := 0, x := 0xFF }.readReg .x).toInt < 0 := by decide

theorem test_witness_OnlyTheNamedRegisterIsWritten :
    (∃ t, exec .popx State.reset = .next t ∧ Instr.target .popx ≠ some .a) ∧
      ∃ t, (constructed [0x107]).fetches (opcodeElement 7) ∧ step (constructed [0x107]) = .next t ∧
        (decodeRanges 7).2 ≠ some .a := by
  unfold State.fetches
  exact ⟨⟨_, rfl, by decide⟩, ⟨_, by decide, rfl, by decide⟩⟩

theorem test_witness_RegistersReadAndWritten :
    (∃ t, Instr.target .seta ≠ some .a ∧ exec .seta State.reset = .next t) ∧
      (∃ t, exec .pushy State.reset = .next t) ∧
        ∃ t, Instr.family .subb = .sub ∧ exec .subb (constructed [0x001]) = .next t ∧ t.cc = .overflow :=
  ⟨⟨_, by decide, rfl⟩, ⟨_, rfl⟩, ⟨_, rfl, rfl, rfl⟩⟩

theorem test_witness_OnlyPushAndPopMoveSP :
    (∃ t, exec .pusha State.reset = .next t) ∧
      (∃ t, Instr.family .adda ≠ .pushi ∧ Instr.family .adda ≠ .pushr ∧ Instr.family .adda ≠ .popr ∧
        exec .adda State.reset = .next t) ∧
        ∃ t, step (constructed [0x101]) = .next t ∧ t.sp ≠ (constructed [0x101]).sp :=
  ⟨⟨_, rfl⟩, ⟨_, by decide, by decide, by decide, rfl⟩, ⟨_, rfl, by decide⟩⟩

theorem test_witness_CCAfterEachStep :
    (∃ arg s', (constructed [0x001, 0x109]).fetches (encode .adda) ∧
      fetchOperand { constructed [0x001, 0x109] with n := 1 } = .next (arg, s')) ∧
      (∃ arg s', (constructed [0x110]).fetches (encode .suby) ∧
        fetchOperand { constructed [0x110] with n := 0 } = .next (arg, s')) ∧
        ∃ t, step State.reset = .next t ∧ ∀ i, ¬ State.reset.fetches (encode i) := by
  unfold State.fetches
  exact ⟨⟨_, _, by decide, rfl⟩, ⟨_, _, by decide, rfl⟩, ⟨_, rfl, fun _ h => absurd h.2.1 (by decide)⟩⟩

theorem test_witness_NegativeAndCarryAreNeverWritten :
    (∃ t, step { State.reset with cc := .carry } = .next t ∧ t.cc = .carry) ∧
      ∃ t, step { State.reset with cc := .negative } = .next t ∧ t.cc = .negative :=
  ⟨⟨_, rfl, rfl⟩, ⟨_, rfl, rfl⟩⟩

theorem test_witness_NoStepReadsCC : ∃ t, step (constructed [0x001, 0x109]) = .next t := ⟨_, rfl⟩

theorem test_witness_NoStepReadsHaltCause : ∃ t, step (constructed [0x118]) = .next t := ⟨_, rfl⟩

/-- Two states that differ in the dead cell 255 only. -/
theorem test_witness_NoStepDependsOnDeadStackCells :
    Memory.wf [] = true ∧ Memory.wf [(255, 7)] = true ∧
      (constructed [0x101]).sameLiveStack { constructed [0x101] with mem := [(255, 7)] } ∧
        ∃ t, step (constructed [0x101]) = .next t :=
  ⟨rfl, rfl, ⟨rfl, fun addr h => absurd h (by simp [constructed, State.reset]; bv_omega)⟩, ⟨_, rfl⟩⟩

theorem test_witness_CellZeroIsNeverWritten :
    ∃ t, { constructed [0x103] with sp := 1, x := 7 }.mem.wf = true ∧
      step { constructed [0x103] with sp := 1, x := 7 } = .next t := ⟨_, rfl, rfl⟩

theorem test_witness_StreamIsReadOnly : ∃ t, step (constructed [0x101]) = .next t ∧ t.run = .running := ⟨_, rfl, rfl⟩

theorem test_witness_HaltCauseTellsTheFourStops :
    (∃ t, (constructed [0x101]).run = .running ∧ step (constructed [0x101]) = .next t) ∧
      ∃ t, State.reset.run = .running ∧ step State.reset = .next t := ⟨⟨_, rfl, rfl⟩, ⟨_, rfl, rfl⟩⟩

theorem test_witness_EveryInstructionCompletes : State.reset.inBounds ∧ (constructed [0x118, 0x005]).inBounds := by
  unfold State.inBounds; decide

theorem test_witness_EveryStepCompletes : (constructed [0x1FF]).inBounds := by
  unfold State.inBounds; decide

theorem test_witness_OverrunFaults :
    { constructed [0x101] with n := 2 }.stream.length < { constructed [0x101] with n := 2 }.n ∧
      { constructed [0x101] with n := 2 }.run = .running ∧ Instr.form .pushi = .opi := by decide

theorem test_witness_RunsEndWithinNPlusOneSteps : (constructed [0x101, 0x102]).inBounds := by
  unfold State.inBounds; decide

theorem test_witness_StepKeepsMemoryCanonical :
    ∃ t, { constructed [0x101] with a := 7, mem := [(255, 9)] }.mem.wf = true ∧
      step { constructed [0x101] with a := 7, mem := [(255, 9)] } = .next t := ⟨_, rfl, rfl⟩

theorem test_witness_StepKeepsInvariant :
    (constructed [0x101]).Inv ∧ ∃ t, step (constructed [0x101]) = .next t :=
  ⟨⟨rfl, rfl, Nat.le_refl _, .inl rfl, ⟨fun _ => rfl, fun _ => rfl⟩⟩, ⟨_, rfl⟩⟩

theorem test_witness_ConstructionResetsEverything : ([] : List Element).length ≤ Config.lMax := Nat.zero_le _

theorem test_witness_HostInterfaceRules :
    Config.lMax < (List.replicate (Config.lMax + 1) (0 : Element)).length ∧
      (State.reset.haltWith .eos).run = .halted ∧ State.reset.run = .running := by
  exact ⟨by simp, rfl, rfl⟩

/-- Every output differs from every other of its width, so no two can be swapped (70_reset_and_hazards.md R175). -/
theorem test_outputs_after_halt :
    readOutputs { constructed [0x001, 0x002] with
        a := 1, b := 2, x := 3, y := 4, sp := 5, cc := .overflow, ir := some 24, run := .halted, hcause := .halt } =
      .next { halted := 1, hcause := 1, regA := 1, regB := 2, regX := 3, regY := 4, sp := 5, cc := 2, ir := some 24,
              n := 2 } := rfl

theorem test_witness_StorageOrderIsReversed : 0 < [0x100#9, 0x005#9].length ∧ 2 ≤ [0x100#9, 0x005#9].length := by decide

theorem test_witness_CountFitsItsRegister : State.reset.inBounds ∧ State.reset.stream.length ≤ Config.lMax :=
  ⟨Nat.le_refl _, Nat.zero_le _⟩

end Sys2Proof.Tests
end

section
/-! SUPPORT. Which registers and which stack pointer an instruction and a step leave behind (10_state.md R22, R23). -/

namespace Sys2Proof.Machine

/-! ### What the handlers do to the register file, IR and SP -/

@[simp] theorem pushHandler_readReg (v : Byte) (s : State) (r : Reg) : (pushHandler v s).readReg r = s.readReg r := by
  by_cases h : s.sp = 0#8
  · rw [pushHandler_full v s h]
  · simp [pushHandler_stores v s h]

@[simp] theorem pushHandler_ir (v : Byte) (s : State) : (pushHandler v s).ir = s.ir := by
  by_cases h : s.sp = 0#8
  · rw [pushHandler_full v s h]
  · simp [pushHandler_stores v s h]

theorem pushHandler_sp_toNat (v : Byte) (s : State) : (pushHandler v s).sp.toNat = s.sp.toNat - 1 := by
  by_cases h : s.sp = 0#8
  · simp [pushHandler_full v s h, h]
  · rw [pushHandler_stores v s h, State.setSP_sp]
    bv_omega

@[simp] theorem popHandler_ir (r : Reg) (s : State) : (popHandler r s).ir = s.ir := by
  by_cases h : s.sp = 255#8
  · simp [popHandler_empty r s h]
  · simp [popHandler_loads r s h]

theorem popHandler_readReg_other (r r' : Reg) (s : State) (hr : r ≠ r') :
    (popHandler r s).readReg r' = s.readReg r' := by
  by_cases h : s.sp = 255#8
  · simp [popHandler_empty r s h, hr]
  · simp [popHandler_loads r s h, hr]

theorem popHandler_sp_toNat (r : Reg) (s : State) : (popHandler r s).sp.toNat = min 255 (s.sp.toNat + 1) := by
  by_cases h : s.sp = 255#8
  · simp [popHandler_empty r s h, h]
  · rw [popHandler_loads r s h, State.writeReg_sp, State.setSP_sp]
    bv_omega

@[simp] theorem addOperand_ir (r : Reg) (arg : Int) (s : State) : (addOperand r arg s).ir = s.ir := by
  rcases addOperand_cases r arg s with h | ⟨res, h⟩ <;> simp [h]

@[simp] theorem addOperand_sp (r : Reg) (arg : Int) (s : State) : (addOperand r arg s).sp = s.sp := by
  rcases addOperand_cases r arg s with h | ⟨res, h⟩ <;> simp [h]

theorem addOperand_readReg_other (r r' : Reg) (arg : Int) (s : State) (hr : r ≠ r') :
    (addOperand r arg s).readReg r' = s.readReg r' := by
  rcases addOperand_cases r arg s with h | ⟨res, h⟩ <;> simp [h, hr]

@[simp] theorem subOperand_ir (r : Reg) (arg : Int) (s : State) : (subOperand r arg s).ir = s.ir := by
  rcases subOperand_cases r arg s with h | ⟨res, h⟩ <;> simp [h]

@[simp] theorem subOperand_sp (r : Reg) (arg : Int) (s : State) : (subOperand r arg s).sp = s.sp := by
  rcases subOperand_cases r arg s with h | ⟨res, h⟩ <;> simp [h]

theorem subOperand_readReg_other (r r' : Reg) (arg : Int) (s : State) (hr : r ≠ r') :
    (subOperand r arg s).readReg r' = s.readReg r' := by
  rcases subOperand_cases r arg s with h | ⟨res, h⟩ <;> simp [h, hr]

/-! ### The operand fetch and the arithmetic handlers do not read SP -/

theorem writeResult_setSP (r : Reg) (exact : Int) (s : State) (v : Byte) :
    writeResult r exact (s.setSP v) = (writeResult r exact s).setSP v := by
  cases r <;> rfl

theorem addOperand_setSP (r : Reg) (arg : Int) (s : State) (v : Byte) :
    addOperand r arg (s.setSP v) = (addOperand r arg s).setSP v := by
  unfold addOperand
  rw [State.readReg_setSP]
  split
  · rfl
  · exact writeResult_setSP r _ s v

theorem subOperand_setSP (r : Reg) (arg : Int) (s : State) (v : Byte) :
    subOperand r arg (s.setSP v) = (subOperand r arg s).setSP v := by
  unfold subOperand
  rw [State.readReg_setSP]
  split
  · rfl
  · exact writeResult_setSP r _ s v

theorem fetchOperand_setSP (s s' : State) (arg : Int) (v : Byte) (h : fetchOperand s = .next (arg, s')) :
    fetchOperand (s.setSP v) = .next (arg, s'.setSP v) := by
  rcases fetchOperand_next s s' arg h with ⟨hn, rfl, rfl⟩ | ⟨e, hn, he, rfl, rfl⟩
  · exact fetchOperand_empty _ hn
  · exact fetchOperand_element (s.setSP v) e hn he

/-! ### exec is determined by its effect -/

theorem exec_of_add (i : Instr) (r : Reg) (s : State) (hf : i.family = .add) (ht : i.target = some r) :
    exec i s = addHandler r s := by
  cases i <;> cases hf <;> cases ht <;> rfl

theorem exec_of_sub (i : Instr) (r : Reg) (s : State) (hf : i.family = .sub) (ht : i.target = some r) :
    exec i s = subHandler r s := by
  cases i <;> cases hf <;> cases ht <;> rfl

theorem exec_of_pushr (i : Instr) (r : Reg) (s : State) (hf : i.family = .pushr) (ht : i.target = some r) :
    exec i s = .next (pushHandler (s.readReg r) s) := by
  cases i <;> cases hf <;> cases ht <;> rfl

theorem exec_of_popr (i : Instr) (r : Reg) (s : State) (hf : i.family = .popr) (ht : i.target = some r) :
    exec i s = .next (popHandler r s) := by
  cases i <;> cases hf <;> cases ht <;> rfl

theorem exec_of_unimpl (i : Instr) (s : State) (hf : i.family = .unimpl) :
    exec i s = .next (s.haltWith .unimpl) := by
  cases i <;> cases hf <;> rfl

/-- The converse of `exec_effect`: an effect is what exec answers, so a claim about two runs of an instruction can be
proved of its effects. -/
theorem exec_of_effect (i : Instr) (s t : State) (h : Effect i s t) : exec i s = .next t := by
  cases h with
  | add _ r _ s' arg hf ht hs => rw [exec_of_add i r s hf ht]; exact withOperand_of_fetch s s' arg _ hs
  | sub _ r _ s' arg hf ht hs => rw [exec_of_sub i r s hf ht]; exact withOperand_of_fetch s s' arg _ hs
  | pushImmediate _ s' arg hs => exact withOperand_of_fetch s s' arg _ hs
  | pushRegister _ r _ hf ht => exact exec_of_pushr i r s hf ht
  | pop _ r _ hf ht => exact exec_of_popr i r s hf ht
  | halt => rfl
  | unimplemented _ _ hf => exact exec_of_unimpl i s hf

/-! ### What an effect leaves unchanged -/

/-- R22 for a meaning: only the target register can change. -/
theorem Effect.readReg_other {i : Instr} {s t : State} (h : Effect i s t) (r : Reg) (hr : i.target ≠ some r) :
    t.readReg r = s.readReg r := by
  have other : ∀ q, i.target = some q → q ≠ r := fun q ht hq => hr (hq ▸ ht)
  cases h with
  | add _ q _ s' arg hf ht hs =>
    rw [addOperand_readReg_other q r arg s' (other q ht), fetchOperand_state s s' arg hs, State.readReg_advance]
  | sub _ q _ s' arg hf ht hs =>
    rw [subOperand_readReg_other q r arg s' (other q ht), fetchOperand_state s s' arg hs, State.readReg_advance]
  | pushImmediate _ s' arg hs => rw [pushHandler_readReg, fetchOperand_state s s' arg hs, State.readReg_advance]
  | pushRegister _ q _ hf ht => exact pushHandler_readReg _ s r
  | pop _ q _ hf ht => exact popHandler_readReg_other q r s (other q ht)
  | halt => exact s.readReg_haltWith r _
  | unimplemented _ _ hf => exact s.readReg_haltWith r _

theorem Effect.ir_eq {i : Instr} {s t : State} (h : Effect i s t) : t.ir = s.ir := by
  cases h with
  | add _ r _ s' arg hf ht hs => simp [fetchOperand_state s s' arg hs]
  | sub _ r _ s' arg hf ht hs => simp [fetchOperand_state s s' arg hs]
  | pushImmediate _ s' arg hs => simp [fetchOperand_state s s' arg hs]
  | pushRegister _ r _ hf ht => exact pushHandler_ir _ s
  | pop _ r _ hf ht => exact popHandler_ir r s
  | halt => rfl
  | unimplemented _ _ hf => rfl

/-- R23 for a meaning: SP moves by one within 0..255, by family. -/
theorem Effect.sp_toNat {i : Instr} {s t : State} (h : Effect i s t) :
    t.sp.toNat =
      if i.family = .pushi ∨ i.family = .pushr then s.sp.toNat - 1
      else if i.family = .popr then min 255 (s.sp.toNat + 1)
      else s.sp.toNat := by
  cases h with
  | add _ r _ s' arg hf ht hs => simp [hf, fetchOperand_state s s' arg hs]
  | sub _ r _ s' arg hf ht hs => simp [hf, fetchOperand_state s s' arg hs]
  | pushImmediate _ s' arg hs =>
    simp [Instr.family, pushHandler_sp_toNat, fetchOperand_state s s' arg hs]
  | pushRegister _ r _ hf ht => simp [hf, pushHandler_sp_toNat]
  | pop _ r _ hf ht => simp [hf, popHandler_sp_toNat]
  | halt => rfl
  | unimplemented _ _ hf => simp [hf]

/-- Outside the push and pop families an effect does not read SP: the same effect runs from any other SP. -/
theorem Effect.setSP {i : Instr} {s t : State} (h : Effect i s t) (v : Byte) (hi : i.family ≠ .pushi)
    (hr : i.family ≠ .pushr) (hp : i.family ≠ .popr) : Effect i (s.setSP v) (t.setSP v) := by
  cases h with
  | add _ r _ s' arg hf ht hs =>
    rw [← addOperand_setSP]
    exact .add i r _ _ arg hf ht (fetchOperand_setSP s s' arg v hs)
  | sub _ r _ s' arg hf ht hs =>
    rw [← subOperand_setSP]
    exact .sub i r _ _ arg hf ht (fetchOperand_setSP s s' arg v hs)
  | pushImmediate => exact absurd rfl hi
  | pushRegister _ r _ hf => exact absurd hf hr
  | pop _ r _ hf => exact absurd hf hp
  | halt => exact .halt (s.setSP v)
  | unimplemented _ _ hf => exact .unimplemented i (s.setSP v) hf

/-! ### The fetched opcode -/

/-- An element decoded as an instruction is that instruction's encoding. -/
theorem encode_of_decode (e : Element) (i : Instr) (h : decode e = .instr i) : encode i = e := by
  obtain ⟨ht, ho⟩ := decode_instr e i h
  rw [encode, opcodeNumber_of_decodeOpcode _ i ho, opcodeElement_payload e ht]

/-- The decoder's ranges (30_encoding.md R69) name the register that the instruction names. -/
theorem decodeRanges_target (op : Byte) (i : Instr) (h : decodeOpcode op = some i) : (decodeRanges op).2 = i.target := by
  obtain rfl := opcodeNumber_of_decodeOpcode op i h
  cases i <;> rfl

/-- A step that fetches an opcode element latches its number, then halts on a reserved one or runs the instruction. -/
theorem step_opcodeElement (s t : State) (op : Byte) (hf : s.fetches (opcodeElement op)) (h : step s = .next t) :
    (t = (s.advance.latch op).haltWith .illegal) ∨
      ∃ i, decodeOpcode op = some i ∧ Effect i (s.advance.latch op) t := by
  rw [step, fetch_element s _ hf, afterConsume] at h
  rcases decode_cases (opcodeElement op) with ⟨ht, -⟩ | ⟨-, -, hd⟩ | ⟨i, -, ho, hd⟩
  · rw [tag_opcodeElement] at ht
    cases ht
  · rw [hd, payload_opcodeElement] at h
    cases h
    exact .inl rfl
  · rw [payload_opcodeElement] at ho
    rw [hd, payload_opcodeElement] at h
    exact .inr ⟨i, ho, exec_effect i _ t h⟩

/-- A step that changes SP dispatched an instruction, and that instruction changed it. -/
theorem step_sp_changed (s t : State) (h : step s = .next t) (hsp : t.sp ≠ s.sp) :
    ∃ i u, s.fetches (encode i) ∧ Effect i u t ∧ u.sp = s.sp := by
  rcases step_cases s t h with ⟨-, rfl⟩ | ⟨-, -, rfl⟩ | ⟨e, he, ⟨-, rfl⟩ | ⟨-, rfl⟩ | ⟨i, hd, hx⟩⟩
  · exact absurd rfl hsp
  · exact absurd rfl hsp
  · exact absurd rfl hsp
  · exact absurd rfl hsp
  · exact ⟨i, _, (encode_of_decode e i hd).symm ▸ he, exec_effect i _ t hx, rfl⟩

/-! ### The obligations -/

/-- Settles O35: by the case analysis of effects, and for a step by the opcode it latches. -/
theorem onlyTheNamedRegisterIsWritten : Obligations.OnlyTheNamedRegisterIsWritten := by
  refine ⟨fun i s t r h hr => (exec_effect i s t h).readReg_other r hr, fun s t op hf h => ?_⟩
  rcases step_opcodeElement s t op hf h with rfl | ⟨i, ho, eff⟩
  · exact ⟨rfl, fun r _ => by simp⟩
  · refine ⟨eff.ir_eq, fun r hr => ?_⟩
    rw [decodeRanges_target op i ho] at hr
    simpa using eff.readReg_other r hr

/-- Settles O37: SP's moves by family, and the independence of the other families' effects from SP. -/
theorem onlyPushAndPopMoveSP : Obligations.OnlyPushAndPopMoveSP := by
  refine ⟨rfl, fun _ => rfl, fun i s t h => (exec_effect i s t h).sp_toNat,
    fun i s t v hi hr hp h => exec_of_effect i _ _ ((exec_effect i s t h).setSP v hi hr hp), fun s t h hsp => ?_⟩
  obtain ⟨i, u, hf, eff, hu⟩ := step_sp_changed s t h hsp
  refine ⟨i, hf, ?_⟩
  by_contra hfam
  obtain ⟨hi, hr, hp⟩ : i.family ≠ .pushi ∧ i.family ≠ .pushr ∧ i.family ≠ .popr := by simpa using hfam
  have kept : t.sp.toNat = u.sp.toNat := by simpa [hi, hr, hp] using eff.sp_toNat
  exact hsp (BitVec.eq_of_toNat_eq (hu ▸ kept))

end Sys2Proof.Machine
end

section
/-! SUPPORT. What a step consumes and in what order, and the instructions whose meaning lies in dispatch alone
(40_fetch_dispatch.md R82, R86 to R96). -/

namespace Sys2Proof.Machine

/-! ### The handlers keep the run state and the stream -/

@[simp] theorem pushHandler_keeps_control (v : Byte) (s : State) :
    (pushHandler v s).run = s.run ∧ (pushHandler v s).hcause = s.hcause ∧
      (pushHandler v s).stream = s.stream ∧ (pushHandler v s).n = s.n := by
  by_cases h : s.sp = 0#8
  · simp [pushHandler_full v s h]
  · simp [pushHandler_stores v s h]

@[simp] theorem popHandler_keeps_control (r : Reg) (s : State) :
    (popHandler r s).run = s.run ∧ (popHandler r s).hcause = s.hcause ∧
      (popHandler r s).stream = s.stream ∧ (popHandler r s).n = s.n := by
  by_cases h : s.sp = 255#8
  · simp [popHandler_empty r s h]
  · simp [popHandler_loads r s h]

@[simp] theorem addOperand_keeps_control (r : Reg) (arg : Int) (s : State) :
    (addOperand r arg s).run = s.run ∧ (addOperand r arg s).hcause = s.hcause ∧
      (addOperand r arg s).stream = s.stream ∧ (addOperand r arg s).n = s.n := by
  rcases addOperand_cases r arg s with h | ⟨res, h⟩ <;> simp [h]

@[simp] theorem subOperand_keeps_control (r : Reg) (arg : Int) (s : State) :
    (subOperand r arg s).run = s.run ∧ (subOperand r arg s).hcause = s.hcause ∧
      (subOperand r arg s).stream = s.stream ∧ (subOperand r arg s).n = s.n := by
  rcases subOperand_cases r arg s with h | ⟨res, h⟩ <;> simp [h]

/-! ### What a meaning consumes, by its instruction's form -/

/-- The families whose instructions have two elements (30_encoding.md R63, R69). -/
theorem form_eq_opi_iff (i : Instr) :
    i.form = .opi ↔ i.family = .pushi ∨ i.family = .add ∨ i.family = .sub := by
  cases i <;> decide

/-- A meaning consumes an operand exactly where the form is OPI, and never writes the stream. -/
theorem Effect.stream_and_n {i : Instr} {s t : State} (h : Effect i s t) :
    t.stream = s.stream ∧ t.n = if i.form = .opi then s.n - 1 else s.n := by
  cases h with
  | add _ r _ s' arg hf ht hs => simp [form_eq_opi_iff, hf, fetchOperand_state s s' arg hs]
  | sub _ r _ s' arg hf ht hs => simp [form_eq_opi_iff, hf, fetchOperand_state s s' arg hs]
  | pushImmediate _ s' arg hs => simp [Instr.form, fetchOperand_state s s' arg hs]
  | pushRegister _ r _ hf ht => simp [form_eq_opi_iff, hf]
  | pop _ r _ hf ht => simp [form_eq_opi_iff, hf]
  | halt => exact ⟨rfl, rfl⟩
  | unimplemented _ _ hf => simp [form_eq_opi_iff, hf]

/-- Outside the halting families a meaning leaves the run state and the halt cause alone. -/
theorem Effect.run_and_hcause {i : Instr} {s t : State} (h : Effect i s t) (hh : i.family ≠ .halt)
    (hu : i.family ≠ .unimpl) : t.run = s.run ∧ t.hcause = s.hcause := by
  cases h with
  | add _ r _ s' arg hf ht hs => simp [fetchOperand_state s s' arg hs]
  | sub _ r _ s' arg hf ht hs => simp [fetchOperand_state s s' arg hs]
  | pushImmediate _ s' arg hs => simp [fetchOperand_state s s' arg hs]
  | pushRegister _ r _ hf ht => simp
  | pop _ r _ hf ht => simp
  | halt => exact absurd rfl hh
  | unimplemented _ _ hf => exact absurd hf hu

/-- A two-element instruction is its operand fetch and then a handler of the operand's value. -/
theorem exec_of_opi (i : Instr) (hi : i.form = .opi) : ∃ handler, ∀ s, exec i s = withOperand s handler := by
  cases i <;> cases hi <;> exact ⟨_, fun _ => rfl⟩

/-- A two-element instruction consumes the next element whatever it is, and neither stops nor starts the core. -/
theorem exec_of_opi_element (i : Instr) (s : State) (e : Element) (hi : i.form = .opi) (pos : 0 < s.n)
    (he : s.nextElement = some e) :
    ∃ t, exec i s = .next t ∧ t.run = s.run ∧ t.hcause = s.hcause ∧ t.n = s.n - 1 := by
  obtain ⟨handler, hx⟩ := exec_of_opi i hi
  have hnext := (hx s).trans (withOperand_of_fetch s _ _ handler (fetchOperand_element s e pos he))
  have eff := exec_effect i s _ hnext
  have hfam := (form_eq_opi_iff i).mp hi
  obtain ⟨hrun, hcause⟩ := eff.run_and_hcause (fun hf => by simp [hf] at hfam) (fun hf => by simp [hf] at hfam)
  exact ⟨_, hnext, hrun, hcause, by simpa [hi] using eff.stream_and_n.2⟩

/-! ### The step, by what it fetches -/

theorem step_of_empty (s : State) (hr : s.run = .running) (hn : s.n = 0) :
    step s = .next (s.clearIR.haltWith .eos) := by
  rw [step, fetch_empty s hr hn]

/-- A stray operand element is consumed and nothing else happens (40_fetch_dispatch.md R86). -/
theorem step_of_operandElement (s : State) (v : Byte) (hf : s.fetches (operandElement v)) :
    step s = .next s.advance := by
  rw [step, fetch_element s _ hf, afterConsume, decode_operandElement]

/-- A step dispatches the decoded instruction with N decremented and IR latched (40_fetch_dispatch.md R80, R85). -/
theorem step_of_instr (s : State) (e : Element) (i : Instr) (hf : s.fetches e) (hd : decode e = .instr i) :
    step s = exec i (s.advance.latch e.payload) := by
  rw [step, fetch_element s e hf, afterConsume, hd]

/-- No step writes the stream or gives an element back. -/
theorem step_stream_and_n (s t : State) (h : step s = .next t) : t.stream = s.stream ∧ t.n ≤ s.n := by
  rcases step_cases s t h with ⟨-, rfl⟩ | ⟨-, -, rfl⟩ | ⟨e, -, ⟨-, rfl⟩ | ⟨-, rfl⟩ | ⟨i, -, hx⟩⟩
  · exact ⟨rfl, Nat.le_refl _⟩
  · exact ⟨rfl, Nat.le_refl _⟩
  · exact ⟨rfl, Nat.sub_le _ _⟩
  · exact ⟨rfl, Nat.sub_le _ _⟩
  · obtain ⟨hstream, hn⟩ := (exec_effect i _ t hx).stream_and_n
    refine ⟨hstream, ?_⟩
    simp only [State.latch_n, State.advance_n] at hn
    split at hn <;> omega

/-- Lowering N over the same stream drops elements from the head of what is still to be consumed. -/
theorem State.pending_eq_drop (s t : State) (hb : s.inBounds) (hs : t.stream = s.stream) (hn : t.n ≤ s.n) :
    t.pending = s.pending.drop (s.n - t.n) := by
  have hlen : (s.stream.take s.n).length = s.n := List.length_take_of_le hb
  rw [State.pending, State.pending, List.drop_reverse, hlen, List.take_take, hs]
  congr 2
  omega

/-! ### The instructions that halt as implemented -/

/-- Rows (instruction, its element, its number) of the unimplemented family: the meaning only halts, so the element after
it stays in the stream. -/
theorem rows_halt_unimplemented (rows : List (Instr × Element × Byte))
    (hrows : ∀ row ∈ rows, row.1.family = .unimpl ∧ decode row.2.1 = .instr row.1 ∧ row.2.1.payload = row.2.2) :
    ∀ row ∈ rows, ∀ s : State, exec row.1 s = .next { s with run := .halted, hcause := .unimpl } ∧
      (s.fetches row.2.1 →
        step s = .next { s with n := s.n - 1, ir := some row.2.2, run := .halted, hcause := .unimpl }) := by
  intro row hrow s
  obtain ⟨hfam, hd, hp⟩ := hrows row hrow
  refine ⟨exec_of_unimpl row.1 s hfam, fun hf => ?_⟩
  rw [step_of_instr s _ row.1 hf hd, exec_of_unimpl row.1 _ hfam, hp]
  rfl

/-! ### The obligations -/

/-- Settles O16: a fetch takes the head of the elements to come, and a step lowers N over an unchanged stream. -/
theorem elementsAreConsumedFromTheTail : Obligations.ElementsAreConsumedFromTheTail := by
  refine ⟨fun S => by simp [State.pending, constructed], fun s e hf => ?_, fun s s' arg pos h => ?_, fun s t hb h => ?_⟩
  · obtain ⟨-, pos, he⟩ := hf
    exact ⟨he, _, s.pending_of_nextElement e pos he⟩
  · rcases fetchOperand_next s s' arg h with ⟨h0, -⟩ | ⟨e, -, he, -, rfl⟩
    · omega
    · exact ⟨e, he, s.pending_of_nextElement e pos he⟩
  · obtain ⟨hs, hn⟩ := step_stream_and_n s t h
    exact ⟨hn, s.pending_eq_drop t hb hs hn⟩

/-- Settles O11: the stray operand's step leaves a running core, whose next step on N = 0 is the empty-stream halt. -/
theorem strayOperandIsDiscarded : Obligations.StrayOperandIsDiscarded := by
  refine ⟨step_of_operandElement, fun s v hf hn => ?_, rfl, rfl⟩
  have empty : s.advance.n = 0 := by simp [hn]
  exact ⟨_, _, step_of_operandElement s v hf, step_of_empty s.advance hf.1 empty, rfl, rfl, rfl⟩

/-- Settles O18: HALT's own effect, its dispatch, and its loss as an operand. -/
theorem haltStopsTheCore : Obligations.HaltStopsTheCore :=
  ⟨fun _ => rfl, fun s hf => step_of_instr s _ .halt hf rfl,
    fun i s hi pos he => exec_of_opi_element i s _ hi pos he, rfl⟩

/-- Settles O19: all three are of the unimplemented family. -/
theorem branchesHaltAsUnimplemented : Obligations.BranchesHaltAsUnimplemented :=
  rows_halt_unimplemented _ (by decide)

/-- Settles O20: all four are of the unimplemented family. -/
theorem setsHaltAsUnimplemented : Obligations.SetsHaltAsUnimplemented :=
  rows_halt_unimplemented _ (by decide)

end Sys2Proof.Machine
end

section
/-! SUPPORT. The stack instructions (42_stack.md): what the push and pop handlers leave unchanged, and what a push or a pop
does as a meaning and as a step (R130, R131, R133 to R144). -/

namespace Sys2Proof.Machine

/-! ### The handlers' next states and frames -/

/-- R130 as one record update. -/
theorem pushHandler_eq (v : Byte) (s : State) :
    pushHandler v s = if s.sp = 0#8 then s else { s with mem := s.mem.write s.sp v, sp := s.sp - 1#8 } := rfl

/-- R131 as one record update. -/
theorem popHandler_eq (r : Reg) (s : State) :
    popHandler r s =
      if s.sp = 255#8 then s.writeReg r 0
      else { s with sp := s.sp + 1#8 }.writeReg r (s.mem.read (s.sp + 1#8)) := rfl

@[simp] theorem pushHandler_cc (v : Byte) (s : State) : (pushHandler v s).cc = s.cc := by
  by_cases h : s.sp = 0#8
  · rw [pushHandler_full v s h]
  · simp [pushHandler_stores v s h]

/-- A push writes the cell at SP alone, and no cell when the stack is full (R144). -/
theorem pushHandler_load_other (v : Byte) (s : State) (addr : Byte) (hwf : s.mem.wf = true)
    (ha : addr ≠ s.sp ∨ s.sp = 0#8) : (pushHandler v s).load addr = s.load addr := by
  by_cases h : s.sp = 0#8
  · rw [pushHandler_full v s h]
  · have hne : addr ≠ s.sp := ha.resolve_right h
    rw [pushHandler_stores v s h]
    exact (Memory.read_write s.mem s.sp addr v hwf).trans (if_neg hne)

@[simp] theorem popHandler_cc (r : Reg) (s : State) : (popHandler r s).cc = s.cc := by
  by_cases h : s.sp = 255#8
  · simp [popHandler_empty r s h]
  · simp [popHandler_loads r s h]

@[simp] theorem popHandler_mem (r : Reg) (s : State) : (popHandler r s).mem = s.mem := by
  by_cases h : s.sp = 255#8
  · simp [popHandler_empty r s h]
  · simp [popHandler_loads r s h]

@[simp] theorem popHandler_load (r : Reg) (s : State) (addr : Byte) : (popHandler r s).load addr = s.load addr :=
  congrArg (Memory.read · addr) (popHandler_mem r s)

/-! ### The nine instructions by their families -/

theorem family_of_mem_pushes :
    ∀ i ∈ ([.pushi, .pusha, .pushb, .pushx, .pushy] : List Instr), i.family = .pushi ∨ i.family = .pushr := by
  decide

theorem family_of_mem_pops :
    ∀ row ∈ ([(.popa, .a), (.popb, .b), (.popx, .x), (.popy, .y)] : List (Instr × Reg)),
      row.1.family = .popr ∧ row.1.target = some row.2 := by
  decide

/-- A push of either family pushes some value, `PUSHi` after its operand fetch. -/
theorem Effect.push_cases {i : Instr} {s t : State} (h : Effect i s t) (hi : i.family = .pushi ∨ i.family = .pushr) :
    (i = .pushi ∧ ∃ v, t = pushHandler v s.advance) ∨ (i ≠ .pushi ∧ ∃ v, t = pushHandler v s) := by
  cases h with
  | add _ r _ s' arg hf => simp [hf] at hi
  | sub _ r _ s' arg hf => simp [hf] at hi
  | pushImmediate _ s' arg hs => exact .inl ⟨rfl, _, by rw [fetchOperand_state s s' arg hs]⟩
  | pushRegister _ r _ hf => exact .inr ⟨fun hp => by simp [hp, Instr.family] at hf, _, rfl⟩
  | pop _ r _ hf => simp [hf] at hi
  | halt => simp [Instr.family] at hi
  | unimplemented _ _ hf => simp [hf] at hi

/-- A push leaves every register but SP, and the stream; `PUSHi` alone consumes an element (R144). -/
theorem Effect.push_keeps {i : Instr} {s t : State} (h : Effect i s t) (hi : i.family = .pushi ∨ i.family = .pushr) :
    (∀ r, t.readReg r = s.readReg r) ∧ t.cc = s.cc ∧ t.ir = s.ir ∧ t.run = s.run ∧ t.hcause = s.hcause ∧
      t.stream = s.stream ∧ t.n = if i = .pushi then s.n - 1 else s.n := by
  rcases h.push_cases hi with ⟨rfl, v, rfl⟩ | ⟨hne, v, rfl⟩
  · simp
  · simp [hne]

theorem Effect.push_load_other {i : Instr} {s t : State} (h : Effect i s t)
    (hi : i.family = .pushi ∨ i.family = .pushr) (hwf : s.mem.wf = true) (addr : Byte)
    (ha : addr ≠ s.sp ∨ s.sp = 0#8) : t.load addr = s.load addr := by
  rcases h.push_cases hi with ⟨-, v, rfl⟩ | ⟨-, v, rfl⟩
  · exact pushHandler_load_other v s.advance addr hwf ha
  · exact pushHandler_load_other v s addr hwf ha

/-- A push on the full stack changes at most N (R142). -/
theorem Effect.push_full {i : Instr} {s t : State} (h : Effect i s t) (hi : i.family = .pushi ∨ i.family = .pushr)
    (hsp : s.sp = 0#8) : t = s.advance ∨ t = s := by
  rcases h.push_cases hi with ⟨-, v, rfl⟩ | ⟨-, v, rfl⟩
  · exact .inl (pushHandler_full v s.advance hsp)
  · exact .inr (pushHandler_full v s hsp)

/-- Within the bounds of the stream every instruction answers a next state. -/
theorem exec_inBounds (i : Instr) (s : State) (hb : s.inBounds) : ∃ t, exec i s = .next t := by
  cases hi : i.form with
  | op => cases i <;> cases hi <;> exact ⟨_, rfl⟩
  | opi =>
    obtain ⟨handler, hx⟩ := exec_of_opi i hi
    obtain ⟨arg, s', hs⟩ := fetchOperand_inBounds s hb
    exact ⟨_, (hx s).trans (withOperand_of_fetch s s' arg handler hs)⟩

/-- What a row (instruction, its element, its number, its register) says of its instruction. -/
def RowOfFamily (f : Family) (row : Instr × Element × Byte × Reg) : Prop :=
  row.1.family = f ∧ row.1.target = some row.2.2.2 ∧ decode row.2.1 = .instr row.1 ∧ row.2.1.payload = row.2.2.1

/-! ### The obligations -/

/-- Settles O29: the frame of the push effects, and that of the pop handler. -/
theorem stackFrame : Obligations.StackFrame := by
  refine ⟨fun i hmem s t hwf hx => ?_, fun row hmem s t hx => ?_⟩
  · have hi := family_of_mem_pushes i hmem
    have eff := exec_effect i s t hx
    obtain ⟨hreg, hcc, hir, hrun, hcause, hstream, hn⟩ := eff.push_keeps hi
    exact ⟨hreg, hcc, hir, hrun, hcause, hstream, hn, eff.push_load_other hi hwf⟩
  · obtain ⟨hf, ht⟩ := family_of_mem_pops row hmem
    rw [exec_of_popr row.1 row.2 s hf ht] at hx
    cases hx
    obtain ⟨hrun, hcause, hstream, hn⟩ := popHandler_keeps_control row.2 s
    exact ⟨fun r hr => popHandler_readReg_other row.2 r s (Ne.symm hr), popHandler_cc row.2 s, popHandler_ir row.2 s,
      hrun, hcause, hstream, hn, popHandler_mem row.2 s, popHandler_load row.2 s⟩

/-- Settles O31: the handlers' own boundary cases, and the completion of `PUSHi` within the stream. -/
theorem stackBoundaries : Obligations.StackBoundaries := by
  refine ⟨fun row hmem s hsp => ?_, fun i hmem s hsp hb => ?_⟩
  · obtain ⟨hf, ht⟩ := family_of_mem_pops row hmem
    have hx := exec_of_popr row.1 row.2 s hf ht
    rw [popHandler_empty row.2 s hsp] at hx
    exact ⟨_, hx, by simp⟩
  · obtain ⟨t, hx⟩ := exec_inBounds i s hb
    refine ⟨t, hx, ?_⟩
    rcases (exec_effect i s t hx).push_full (family_of_mem_pushes i hmem) hsp with rfl | rfl
    · simp
    · simp

/-- Settles O26: the dispatch of a register push, with the push handler's record update. -/
theorem pushRegisterStoresAtSP : Obligations.PushRegisterStoresAtSP := by
  intro row hmem s
  have hrow : RowOfFamily .pushr row := by revert row; unfold RowOfFamily; decide
  obtain ⟨hf, ht, hd, hp⟩ := hrow
  refine ⟨by rw [exec_of_pushr row.1 row.2.2.2 s hf ht, pushHandler_eq], fun hfetch => ⟨_, ?_, rfl⟩⟩
  rw [step_of_instr s _ row.1 hfetch hd, exec_of_pushr row.1 row.2.2.2 _ hf ht, hp, State.readReg_latch,
    State.readReg_advance, pushHandler_eq]
  rfl

/-- Settles O28: the dispatch of a pop, with the pop handler's record update. -/
theorem popLoadsAboveSP : Obligations.PopLoadsAboveSP := by
  intro row hmem s
  have hrow : RowOfFamily .popr row := by revert row; unfold RowOfFamily; decide
  obtain ⟨hf, ht, hd, hp⟩ := hrow
  refine ⟨by rw [exec_of_popr row.1 row.2.2.2 s hf ht, popHandler_eq], fun hfetch => ⟨_, ?_, rfl⟩⟩
  rw [step_of_instr s _ row.1 hfetch hd, exec_of_popr row.1 row.2.2.2 _ hf ht, hp, popHandler_eq]
  rfl

end Sys2Proof.Machine
end

section
/-! SUPPORT. Elements and the decoder in both directions, and the cut of a stream into parcels as the inverse of encoding
them (30_encoding.md sections 1 to 4). -/

namespace Sys2Proof

/-! ### One element -/

@[simp] theorem decode_encode (i : Instr) : decode (encode i) = .instr i := by
  simp [decode, encode]

theorem decode_opcodeElement_reserved (n : Byte) : decode (opcodeElement n) = .reserved n ↔ 25 ≤ n.toNat := by
  rw [← decodeOpcode_eq_none]
  cases hd : decodeOpcode n <;> simp [decode, hd]

theorem toNat_operandElement (v : Byte) : (operandElement v).toNat = v.toNat := by
  rw [operandElement, BitVec.toNat_append]
  exact Nat.zero_or _

theorem toNat_opcodeElement (n : Byte) : (opcodeElement n).toNat = 256 + n.toNat := by
  rw [opcodeElement, BitVec.toNat_append, ← Nat.shiftLeft_add_eq_or_of_lt n.isLt]
  rfl

/-- An element is an operand element, a reserved opcode element or an instruction's encoding. -/
theorem element_cases (e : Element) :
    (∃ v, e = operandElement v) ∨ (∃ n : Byte, 25 ≤ n.toNat ∧ e = opcodeElement n) ∨ ∃ i, e = encode i := by
  rcases decode_cases e with ⟨ht, -⟩ | ⟨ht, ho, -⟩ | ⟨i, ht, ho, -⟩
  · exact .inl ⟨_, (operandElement_payload e ht).symm⟩
  · exact .inr (.inl ⟨_, (decodeOpcode_eq_none _).mp ho, (opcodeElement_payload e ht).symm⟩)
  · exact .inr (.inr ⟨i, by rw [encode, opcodeNumber_of_decodeOpcode _ i ho, opcodeElement_payload e ht]⟩)

@[simp] theorem decodeRanges_opcodeNumber (i : Instr) : decodeRanges (opcodeNumber i) = (i.family, i.target) := by
  cases i <;> rfl

theorem decodeRanges_reserved (n : Byte) (h : 25 ≤ n.toNat) : decodeRanges n = (.illegal, none) := by
  simp (disch := omega) only [decodeRanges, if_neg]

/-! ### The parcels of a stream -/

/-- The first parcel of a stream that begins with the elements of a well-formed parcel is that parcel, if it has its
operand or the stream ends there. -/
theorem parcels_encodeParcel_append (p : Parcel) (es : List Element) (hw : p.wf = true)
    (hc : p.complete = true ∨ es = []) : parcels (encodeParcel p ++ es) = p :: parcels es := by
  cases p with
  | stray v => simp [encodeParcel, parcels]
  | reserved n => simp [encodeParcel, parcels, (decode_opcodeElement_reserved n).mpr (by simpa [Parcel.wf] using hw)]
  | op i => simp [encodeParcel, parcels, show i.form = .op by simpa [Parcel.wf] using hw]
  | opi i v => simp [encodeParcel, parcels, show i.form = .opi by simpa [Parcel.wf] using hw]
  | opiLost i n => simp [encodeParcel, parcels, show i.form = .opi by simpa [Parcel.wf] using hw]
  | opiShort i =>
    obtain rfl : es = [] := hc.resolve_left (by simp [Parcel.complete])
    simp [encodeParcel, parcels, show i.form = .opi by simpa [Parcel.wf] using hw]

/-- Every stream that is not empty begins with the elements of a well-formed parcel, which lacks its operand only at the
end of the stream. -/
theorem exists_first_parcel (e : Element) (rest : List Element) :
    ∃ p es, p.wf = true ∧ (p.complete = true ∨ es = []) ∧ e :: rest = encodeParcel p ++ es := by
  rcases element_cases e with ⟨v, rfl⟩ | ⟨n, hn, rfl⟩ | ⟨i, rfl⟩
  · exact ⟨.stray v, rest, rfl, .inl rfl, rfl⟩
  · exact ⟨.reserved n, rest, by simpa [Parcel.wf] using hn, .inl rfl, rfl⟩
  · cases hi : i.form with
    | op => exact ⟨.op i, rest, by simpa [Parcel.wf] using hi, .inl rfl, rfl⟩
    | opi =>
      cases rest with
      | nil => exact ⟨.opiShort i, [], by simpa [Parcel.wf] using hi, .inr rfl, rfl⟩
      | cons e' es =>
        cases ht : e'.tag with
        | false =>
          exact ⟨.opi i e'.payload, es, by simpa [Parcel.wf] using hi, .inl rfl, by
            simp [encodeParcel, operandElement_payload e' ht]⟩
        | true =>
          exact ⟨.opiLost i e'.payload, es, by simpa [Parcel.wf] using hi, .inl rfl, by
            simp [encodeParcel, opcodeElement_payload e' ht]⟩

/-- The first parcel as the cut finds it: its elements head the stream, and the cut of the rest gives the other parcels. -/
theorem parcels_eq_cons (es : List Element) (p : Parcel) (ps : List Parcel) (h : parcels es = p :: ps) :
    ∃ rest, es = encodeParcel p ++ rest ∧ p.wf = true ∧ (p.complete = true ∨ rest = []) ∧ parcels rest = ps := by
  cases es with
  | nil => simp [parcels] at h
  | cons e es =>
    obtain ⟨q, rest, hw, hc, heq⟩ := exists_first_parcel e es
    rw [heq, parcels_encodeParcel_append q rest hw hc] at h
    obtain ⟨rfl, rfl⟩ := List.cons.inj h
    exact ⟨rest, heq, hw, hc, rfl⟩

theorem encodeParcel_length_pos (p : Parcel) : 0 < (encodeParcel p).length := by
  cases p <;> simp [encodeParcel]

theorem encodeParcels_cons (p : Parcel) (ps : List Parcel) :
    encodeParcels (p :: ps) = encodeParcel p ++ encodeParcels ps := by
  simp [encodeParcels]

/-! ### The obligations -/

/-- Settles O6: by induction on the parcels, each of which is the first one of its elements. -/
theorem parcelsOfEncodedParcels : Obligations.ParcelsOfEncodedParcels := by
  intro ps
  induction ps with
  | nil => intro _; rfl
  | cons p ps ih =>
    intro h
    obtain ⟨⟨hw, hc⟩, hps⟩ : (p.wf = true ∧ (p.complete = true ∨ ps = [])) ∧ Parcel.listWf ps = true := by
      simpa [Parcel.listWf] using h
    have hrest : p.complete = true ∨ encodeParcels ps = [] := hc.imp_right fun hnil => by rw [hnil]; rfl
    rw [encodeParcels_cons, parcels_encodeParcel_append p _ hw hrest, ih hps]

/-- Settles O7: by induction on the stream's length, its first parcel taken off. -/
theorem encodedParcelsOfStream : Obligations.EncodedParcelsOfStream := by
  intro es
  induction hk : es.length using Nat.strong_induction_on generalizing es with
  | _ k ih =>
    subst hk
    cases es with
    | nil => exact ⟨rfl, rfl⟩
    | cons e es =>
      obtain ⟨p, rest, hw, hc, heq⟩ := exists_first_parcel e es
      have shorter : rest.length < (e :: es).length := by
        have := encodeParcel_length_pos p
        rw [heq, List.length_append]
        omega
      obtain ⟨hwf, hback⟩ := ih _ shorter rest rfl
      have hlast : p.complete = true ∨ parcels rest = [] := hc.imp_right fun hnil => by rw [hnil]; rfl
      rw [heq, parcels_encodeParcel_append p rest hw hc, encodeParcels_cons, hback]
      exact ⟨by simpa [Parcel.listWf, hw, hwf] using hlast, rfl⟩

/-- Settles O1: the rows are those of `encode`, `decode`, `Instr.form` and `Instr.target`. -/
theorem opcodeTableRows : Obligations.OpcodeTableRows := by
  unfold Obligations.OpcodeTableRows
  decide

/-- Settles O2: an element is the one of its tag and payload. -/
theorem elementIsTagAndPayload : Obligations.ElementIsTagAndPayload := by
  refine ⟨fun v => ⟨toNat_operandElement v, toNat_opcodeElement v, decode_operandElement v⟩, fun e => ⟨rfl, ?_, ?_⟩⟩
  · intro k hk
    simp [Element.payload, hk]
  · cases ht : e.tag with
    | false => exact .inl ⟨(operandElement_payload e ht).symm, rfl⟩
    | true => exact .inr ⟨(opcodeElement_payload e ht).symm, rfl⟩

/-- Settles O3. -/
theorem reservedNumbersNameNoInstruction : Obligations.ReservedNumbersNameNoInstruction :=
  decode_opcodeElement_reserved

/-- Settles O4: the numbers 25..255 lie beyond the last range, and the others are each an instruction's. -/
theorem decoderAgreesWithItsRanges : Obligations.DecoderAgreesWithItsRanges := by
  intro n
  by_cases hn : 25 ≤ n.toNat
  · rw [(decode_opcodeElement_reserved n).mpr hn, decodeRanges_reserved n hn]
  · obtain ⟨i, hi⟩ := Option.ne_none_iff_exists'.mp (mt (decodeOpcode_eq_none n).mp hn)
    obtain rfl := opcodeNumber_of_decodeOpcode n i hi
    rw [← encode, decode_encode, decodeRanges_opcodeNumber]

/-- Settles O5: an element that decodes to an instruction has that instruction's number below tag 1. -/
theorem decodeEncodeOneElement : Obligations.DecodeEncodeOneElement :=
  ⟨decode_encode, Machine.encode_of_decode⟩

end Sys2Proof
end

section
/-! SUPPORT. The step said once in both directions, and what follows for halts, IR, N and completion
(40_fetch_dispatch.md, 10_state.md sections 5, 7 and 8, 60_exceptions.md section 1). -/

namespace Sys2Proof.Machine

/-! ### The step by what it fetches, in both directions -/

theorem step_of_halted (s : State) (h : s.run = .halted) : step s = .next s := by
  rw [step, fetch_halted s h]

theorem step_of_reserved (s : State) (op : Byte) (hop : 25 ≤ op.toNat) (hf : s.fetches (opcodeElement op)) :
    step s = .next ((s.advance.latch op).haltWith .illegal) := by
  rw [step, fetch_element s _ hf, afterConsume, (decode_opcodeElement_reserved op).mpr hop]

theorem step_of_encode (s : State) (i : Instr) (hf : s.fetches (encode i)) :
    step s = exec i (s.advance.latch (opcodeNumber i)) := by
  rw [step_of_instr s _ i hf (decode_encode i), encode, payload_opcodeElement]

/-- The effects a step can have: `Effect` is its counterpart for a meaning. -/
inductive StepEffect (s : State) : State → Prop where
  | halted : s.run = .halted → StepEffect s s
  | empty : s.run = .running → s.n = 0 → StepEffect s (s.clearIR.haltWith .eos)
  | stray (v : Byte) : s.fetches (operandElement v) → StepEffect s s.advance
  | reserved (op : Byte) : 25 ≤ op.toNat → s.fetches (opcodeElement op) →
      StepEffect s ((s.advance.latch op).haltWith .illegal)
  | instr (t : State) (i : Instr) : s.fetches (encode i) → Effect i (s.advance.latch (opcodeNumber i)) t → StepEffect s t

/-- `step` answers exactly the states of its effects, so a claim about two steps can be proved of their effects. -/
theorem step_eq_next_iff (s t : State) : step s = .next t ↔ StepEffect s t := by
  constructor
  · intro h
    rcases step_cases s t h with ⟨hr, rfl⟩ | ⟨hr, hn, rfl⟩ | ⟨e, hf, -⟩
    · exact .halted hr
    · exact .empty hr hn
    · rcases element_cases e with ⟨v, rfl⟩ | ⟨op, hop, rfl⟩ | ⟨i, rfl⟩
      · rw [step_of_operandElement s v hf] at h
        cases h
        exact .stray v hf
      · rw [step_of_reserved s op hop hf] at h
        cases h
        exact .reserved op hop hf
      · rw [step_of_encode s i hf] at h
        exact .instr t i hf (exec_effect i _ t h)
  · intro h
    cases h with
    | halted hr => exact step_of_halted s hr
    | empty hr hn => exact step_of_empty s hr hn
    | stray v hf => exact step_of_operandElement s v hf
    | reserved op hop hf => exact step_of_reserved s op hop hf
    | instr _ i hf eff => rw [step_of_encode s i hf]; exact exec_of_effect i _ t eff

/-! ### The element fetched -/

theorem State.fetches_iff_eq {s : State} {e : Element} (h : s.fetches e) (e' : Element) : s.fetches e' ↔ e' = e := by
  obtain ⟨hr, pos, he⟩ := h
  simp [State.fetches, hr, pos, he, eq_comm]

theorem opcodeElement_ne_operandElement (op v : Byte) : opcodeElement op ≠ operandElement v := fun h => by
  simpa using congrArg Element.tag h

theorem opcodeElement_inj (op op' : Byte) : opcodeElement op = opcodeElement op' ↔ op = op' :=
  ⟨fun h => by simpa using congrArg Element.payload h, fun h => h ▸ rfl⟩

theorem opcodeElement_eq_encode_iff (op : Byte) (i : Instr) : opcodeElement op = encode i ↔ op = opcodeNumber i :=
  opcodeElement_inj op (opcodeNumber i)

theorem State.pending_length (s : State) (hb : s.inBounds) : s.pending.length = s.n := by
  rw [State.pending, List.length_reverse, List.length_take_of_le hb]

theorem State.fetches_of_pending (s : State) (e : Element) (rest : List Element) (hr : s.run = .running)
    (hb : s.inBounds) (h : s.pending = e :: rest) : s.fetches e := by
  have pos : 0 < s.n := by rw [← s.pending_length hb, h]; exact Nat.succ_pos _
  obtain ⟨e', he'⟩ := s.nextElement_isSome pos hb
  rw [s.pending_of_nextElement e' pos he'] at h
  obtain ⟨rfl, -⟩ := List.cons.inj h
  exact ⟨hr, pos, he'⟩

/-! ### The run state, the halt cause and N after an effect -/

/-- Which families halt, and with which cause. -/
theorem Effect.run_and_hcause_eq {i : Instr} {s t : State} (h : Effect i s t) :
    t.run = (if i.family = .halt ∨ i.family = .unimpl then .halted else s.run) ∧
      t.hcause = if i.family = .halt then .halt else if i.family = .unimpl then .unimpl else s.hcause := by
  by_cases hi : i.family = .halt ∨ i.family = .unimpl
  · cases h with
    | halt => exact ⟨rfl, rfl⟩
    | unimplemented _ _ hf => simp [hf]
    | add _ _ _ _ _ hf | sub _ _ _ _ _ hf | pushRegister _ _ _ hf | pop _ _ _ hf => simp [hf] at hi
    | pushImmediate => simp [Instr.family] at hi
  · obtain ⟨hh, hu⟩ := not_or.mp hi
    rw [if_neg hi, if_neg hh, if_neg hu]
    exact h.run_and_hcause hh hu

theorem Effect.run_eq {i : Instr} {s t : State} (h : Effect i s t) :
    t.run = if i.family = .halt ∨ i.family = .unimpl then .halted else s.run :=
  h.run_and_hcause_eq.1

theorem Effect.hcause_eq {i : Instr} {s t : State} (h : Effect i s t) :
    t.hcause = if i.family = .halt then .halt else if i.family = .unimpl then .unimpl else s.hcause :=
  h.run_and_hcause_eq.2

theorem Effect.inBounds {i : Instr} {s t : State} (h : Effect i s t) (hb : s.inBounds) : t.inBounds := by
  obtain ⟨hstream, hn⟩ := h.stream_and_n
  unfold State.inBounds at hb ⊢
  rw [hstream]
  split at hn <;> omega

/-- The step of an instruction's element consumes it, and one more element if the form is OPI (30_encoding.md R65). -/
theorem step_n_of_encode (s t : State) (i : Instr) (hf : s.fetches (encode i)) (h : step s = .next t) :
    t.n = if i.form = .opi then s.n - 1 - 1 else s.n - 1 := by
  rw [step_of_encode s i hf] at h
  exact (exec_effect i _ t h).stream_and_n.2

/-- A step that leaves the core running has consumed an element. -/
theorem step_consumes_while_running (s t : State) (h : step s = .next t) (hr : t.run = .running) : t.n < s.n := by
  cases (step_eq_next_iff s t).mp h with
  | halted hs => rw [hs] at hr; cases hr
  | empty => cases hr
  | reserved => cases hr
  | stray v hf => exact Nat.sub_one_lt_of_lt hf.2.1
  | instr _ i hf eff =>
    have pos := hf.2.1
    have hn := step_n_of_encode s t i hf h
    split at hn <;> omega

/-! ### Completion and the overrun -/

theorem step_inBounds (s : State) (hb : s.inBounds) : ∃ t, step s = .next t ∧ t.inBounds := by
  have answers : ∃ t, step s = .next t := by
    cases hr : s.run with
    | halted => exact ⟨s, step_of_halted s hr⟩
    | running =>
      by_cases hn : s.n = 0
      · exact ⟨_, step_of_empty s hr hn⟩
      · obtain ⟨e, he⟩ := s.nextElement_isSome (by omega) hb
        have hf : s.fetches e := ⟨hr, by omega, he⟩
        rcases element_cases e with ⟨v, rfl⟩ | ⟨op, hop, rfl⟩ | ⟨i, rfl⟩
        · exact ⟨_, step_of_operandElement s v hf⟩
        · exact ⟨_, step_of_reserved s op hop hf⟩
        · have hb' : (s.advance.latch (opcodeNumber i)).inBounds := Nat.le_trans (Nat.sub_le _ _) hb
          rw [step_of_encode s i hf]
          exact exec_inBounds i _ hb'
  obtain ⟨t, ht⟩ := answers
  obtain ⟨hstream, hn⟩ := step_stream_and_n s t ht
  exact ⟨t, ht, by rw [State.inBounds, hstream]; exact hn.trans hb⟩

theorem State.nextElement_overrun (s : State) (h : s.stream.length < s.n) : s.nextElement = none :=
  List.getElem?_eq_none (by omega)

theorem fetchOperand_overrun (s : State) (h : s.stream.length < s.n) : fetchOperand s = .fault .streamOverrun := by
  simp [fetchOperand, s.nextElement_overrun h, show ¬ s.n = 0 by omega]

theorem step_overrun (s : State) (h : s.stream.length < s.n) (hr : s.run = .running) :
    step s = .fault .streamOverrun := by
  simp [step, fetch, hr, s.nextElement_overrun h, show ¬ s.n = 0 by omega]

@[simp] theorem operandValue_operandElement (v : Byte) : operandValue (operandElement v) = sint8 v := by
  simp [operandValue]

@[simp] theorem operandValue_opcodeElement (op : Byte) : operandValue (opcodeElement op) = 0 := by
  simp [operandValue]

/-! ### Runs -/

theorem run_of_halted (k : Nat) (s : State) (h : s.run = .halted) : Host.Core.run Sys2Proof.core k s = .next s := by
  induction k with
  | zero => rfl
  | succ k ih => rw [core_run_of_step k s s (step_of_halted s h), ih]

/-- N bounds the steps before the one that halts. -/
theorem run_halts (k : Nat) (s : State) (hb : s.inBounds) (hn : s.n ≤ k) :
    ∃ t, Host.Core.run Sys2Proof.core (k + 1) s = .next t ∧ State.run t = .halted := by
  induction k generalizing s with
  | zero =>
    obtain ⟨t, ht, -⟩ := step_inBounds s hb
    cases hr : t.run with
    | halted => exact ⟨t, core_run_of_step 0 s t ht, hr⟩
    | running => exact absurd (step_consumes_while_running s t ht hr) (by omega)
  | succ k ih =>
    obtain ⟨t, ht, hb'⟩ := step_inBounds s hb
    rw [core_run_of_step (k + 1) s t ht]
    cases hr : t.run with
    | halted => exact ⟨t, run_of_halted (k + 1) t hr, hr⟩
    | running =>
      have fewer := step_consumes_while_running s t ht hr
      exact ih t hb' (by omega)

/-! ### One step and one parcel -/

/-- How far N falls: by the elements of the parcel that heads the elements to come. -/
theorem step_n_of_parcel (s t : State) (p : Parcel) (rest : List Element) (hr : s.run = .running) (hb : s.inBounds)
    (hp : s.pending = encodeParcel p ++ rest) (hw : p.wf = true) (hc : p.complete = true ∨ rest = [])
    (h : step s = .next t) : t.n + (encodeParcel p).length = s.n := by
  have hlen : s.n = (encodeParcel p).length + rest.length := by rw [← s.pending_length hb, hp, List.length_append]
  have fetched : ∀ e es, encodeParcel p = e :: es → s.fetches e := fun e es he =>
    s.fetches_of_pending e (es ++ rest) hr hb (by rw [hp, he, List.cons_append])
  have ofInstr : ∀ i es, encodeParcel p = encode i :: es → t.n = if i.form = .opi then s.n - 1 - 1 else s.n - 1 :=
    fun i es he => step_n_of_encode s t i (fetched _ es he) h
  cases p with
  | stray v =>
    rw [step_of_operandElement s v (fetched _ _ rfl)] at h
    cases h
    simp [hlen, encodeParcel, Nat.add_comm]
  | reserved op =>
    rw [step_of_reserved s op (by simpa [Parcel.wf] using hw) (fetched _ _ rfl)] at h
    cases h
    simp [hlen, encodeParcel, Nat.add_comm]
  | op i =>
    have hi : i.form = .op := by simpa [Parcel.wf] using hw
    simp [ofInstr i _ rfl, hi, hlen, encodeParcel, Nat.add_comm]
  | opi i v =>
    have hi : i.form = .opi := by simpa [Parcel.wf] using hw
    simp [ofInstr i _ rfl, hi, hlen, encodeParcel, Nat.add_comm 2]
  | opiLost i op =>
    have hi : i.form = .opi := by simpa [Parcel.wf] using hw
    simp [ofInstr i _ rfl, hi, hlen, encodeParcel, Nat.add_comm 2]
  | opiShort i =>
    have hi : i.form = .opi := by simpa [Parcel.wf] using hw
    obtain rfl : rest = [] := hc.resolve_left (by simp [Parcel.complete])
    simp [ofInstr i _ rfl, hi, hlen, encodeParcel]

/-! ### The obligations -/

/-- Settles O8: the step lowers N by the first parcel's length, and dropping that many elements leaves the rest. -/
theorem oneStepConsumesOneParcel : Obligations.OneStepConsumesOneParcel := by
  intro s p ps hr hb hps
  obtain ⟨rest, hp, hw, hc, rfl⟩ := parcels_eq_cons s.pending p ps hps
  obtain ⟨t, ht, -⟩ := step_inBounds s hb
  have hn := step_n_of_parcel s t p rest hr hb hp hw hc ht
  obtain ⟨hstream, hle⟩ := step_stream_and_n s t ht
  refine ⟨t, ht, ?_, hn⟩
  rw [s.pending_eq_drop t hb hstream hle, show s.n - t.n = (encodeParcel p).length by omega, hp, List.drop_left]

/-- Settles O9. -/
theorem haltedCoreKeepsItsState : Obligations.HaltedCoreKeepsItsState :=
  step_of_halted

/-- Settles O10. -/
theorem emptyStreamFetchHalts : Obligations.EmptyStreamFetchHalts :=
  step_of_empty

/-- Settles O12. -/
theorem reservedOpcodeHaltsIllegal : Obligations.ReservedOpcodeHaltsIllegal :=
  step_of_reserved

/-- Settles O13: no instruction halts with ILLEGAL, so only the reserved numbers do. -/
theorem safetyIsLostOnlyOnReservedOpcodes : Obligations.SafetyIsLostOnlyOnReservedOpcodes := by
  intro s t hs h
  constructor
  · intro lost
    cases (step_eq_next_iff s t).mp h with
    | halted => exact absurd hs lost
    | empty => exact absurd (by simp [State.safe]) lost
    | stray => exact absurd hs lost
    | reserved op hop hf => exact ⟨op, hop, hf⟩
    | instr _ i hf eff =>
      have kept_safe : t.safe := by
        rw [State.safe, eff.hcause_eq]
        split_ifs
        · simp
        · simp
        · exact hs
      exact absurd kept_safe lost
  · rintro ⟨op, hop, hf⟩
    rw [step_of_reserved s op hop hf] at h
    cases h
    simp [State.safe]

/-- Settles O14. -/
theorem stepRunsDecodedInstruction : Obligations.StepRunsDecodedInstruction :=
  step_of_instr

/-- Settles O15: clause by clause, by the step of what is fetched. -/
theorem irHoldsTheLastOpcodeFetched : Obligations.IRHoldsTheLastOpcodeFetched := by
  intro s t h
  refine ⟨fun op hf => (onlyTheNamedRegisterIsWritten.2 s t op hf h).1, fun v hf => ?_, fun hr hn => ?_, fun hr => ?_⟩
  · rw [step_of_operandElement s v hf] at h
    cases h
    rfl
  · rw [step_of_empty s hr hn] at h
    cases h
    rfl
  · rw [step_of_halted s hr] at h
    cases h
    rfl

/-- Settles O17: form by form, by the operand fetch's own laws. -/
theorem operandFetchForms : Obligations.OperandFetchForms := by
  refine fun s => ⟨fetchOperand_empty s, fun v pos he => ?_, fun op pos he => ?_, fetchOperand_overrun s⟩
  · rw [fetchOperand_element s _ pos he, operandValue_operandElement]
    rfl
  · rw [fetchOperand_element s _ pos he, operandValue_opcodeElement]
    rfl

/-- Settles O44. -/
theorem streamIsReadOnly : Obligations.StreamIsReadOnly := fun s t h => by
  obtain ⟨hstream, hn⟩ := step_stream_and_n s t h
  exact ⟨hstream, hn, step_consumes_while_running s t h⟩

/-- Settles O45: by the step's effects, with the decoder's ranges naming the families that halt. -/
theorem haltCauseTellsTheFourStops : Obligations.HaltCauseTellsTheFourStops := by
  intro s t hr h
  cases (step_eq_next_iff s t).mp h with
  | halted hs => rw [hr] at hs; cases hs
  | empty _ hn => simp [hn]
  | stray v hf =>
    have only := State.fetches_iff_eq hf
    obtain ⟨-, pos, he⟩ := hf
    simp [pos.ne', he, hr, only, opcodeElement_ne_operandElement]
  | reserved op hop hf =>
    have only := State.fetches_iff_eq hf
    obtain ⟨-, pos, he⟩ := hf
    simp [pos.ne', he, (decode_opcodeElement_reserved op).mpr hop, only, opcodeElement_inj, decodeRanges_reserved op hop]
  | instr _ i hf eff =>
    have only := State.fetches_iff_eq hf
    obtain ⟨-, pos, he⟩ := hf
    have no_illegal : i.family ≠ .illegal := by cases i <;> decide
    simp [pos.ne', he, only, opcodeElement_eq_encode_iff, eff.hcause_eq, eff.run_eq, hr, no_illegal, or_iff_not_imp_left]

/-- Settles O46. -/
theorem everyInstructionCompletes : Obligations.EveryInstructionCompletes := fun i s hb => by
  obtain ⟨t, ht⟩ := exec_inBounds i s hb
  exact ⟨t, ht, (exec_effect i s t ht).inBounds hb⟩

/-- Settles O47. -/
theorem everyStepCompletes : Obligations.EveryStepCompletes :=
  step_inBounds

/-- Settles O48: there is no element at S[N-1], for the fetch and for the operand fetch alike. -/
theorem overrunFaults : Obligations.OverrunFaults := by
  refine fun s h => ⟨step_overrun s h, fun i hi => ?_⟩
  obtain ⟨handler, hx⟩ := exec_of_opi i hi
  rw [hx, withOperand, fetchOperand_overrun s h]

/-- Settles O49: every step but the halting one lowers N. -/
theorem runsEndWithinNPlusOneSteps : Obligations.RunsEndWithinNPlusOneSteps := fun s hb =>
  run_halts s.n s hb (Nat.le_refl _)

/-- Settles O59: L_MAX + 1 is at most 2 to the power of its rounded-up logarithm. -/
theorem countFitsItsRegister : Obligations.CountFitsItsRegister := fun s hb hlen =>
  calc s.n ≤ s.stream.length := hb
    _ < Config.lMax + 1 := Nat.lt_succ_of_le hlen
    _ ≤ 2 ^ Config.countWidth := Nat.le_pow_clog (by decide) _

end Sys2Proof.Machine
end

section
/-! SUPPORT. The add and subtract handlers by their outcomes, what the eight arithmetic instructions leave unchanged, and
CC after a step (41_arithmetic.md, 10_state.md section 3). -/

namespace Sys2Proof.Machine

/-! ### Operands -/

theorem operandValue_range (e : Element) : -128 ≤ operandValue e ∧ operandValue e ≤ 127 := by
  unfold operandValue
  split
  · decide
  · exact sint8_range e.payload

theorem fetchOperand_range (s s' : State) (arg : Int) (h : fetchOperand s = .next (arg, s')) :
    -128 ≤ arg ∧ arg ≤ 127 := by
  rcases fetchOperand_next s s' arg h with ⟨-, rfl, -⟩ | ⟨e, -, -, rfl, -⟩
  · decide
  · exact operandValue_range e

theorem fetchOperand_readReg (s s' : State) (arg : Int) (h : fetchOperand s = .next (arg, s')) (r : Reg) :
    s'.readReg r = s.readReg r := by
  rw [fetchOperand_state s s' arg h, State.readReg_advance]

theorem fetchOperand_latch (s s' : State) (arg : Int) (op : Byte) (h : fetchOperand s = .next (arg, s')) :
    fetchOperand (s.latch op) = .next (arg, s'.latch op) := by
  rcases fetchOperand_next s s' arg h with ⟨hn, rfl, rfl⟩ | ⟨e, hn, he, rfl, rfl⟩
  · exact fetchOperand_empty _ hn
  · exact fetchOperand_element (s.latch op) e hn he

/-! ### The handlers, rejecting and writing -/

theorem addOperand_rejects (r : Reg) (arg : Int) (s : State) (h : 127 < sint8 (s.readReg r) + arg) :
    addOperand r arg s = s.setCC .overflow :=
  if_pos ((addRejected_iff _ _).mpr (by omega))

theorem addOperand_writes (r : Reg) (arg : Int) (s : State) (h : sint8 (s.readReg r) + arg ≤ 127) :
    addOperand r arg s = writeResult r (sint8 (s.readReg r) + arg) s :=
  if_neg (mt (addRejected_iff _ _).mp (by omega))

theorem subOperand_rejects (r : Reg) (arg : Int) (s : State) (h : sint8 (s.readReg r) < arg) :
    subOperand r arg s = s.setCC .overflow :=
  if_pos ((subRejected_iff _ _).mpr h)

theorem subOperand_writes (r : Reg) (arg : Int) (s : State) (h : arg ≤ sint8 (s.readReg r)) :
    subOperand r arg s = writeResult r (sint8 (s.readReg r) - arg) s :=
  if_neg (mt (subRejected_iff _ _).mp (by omega))

/-- A result of pattern 0 sets ZERO (decision D7: also where the exact result is not 0). -/
theorem writeResult_zero (r : Reg) (exact : Int) (s : State) (h : bits8 exact = 0#8) :
    writeResult r exact s = { s.writeReg r 0#8 with cc := .zero } := by
  rw [writeResult, h]
  rfl

/-- A result whose pattern reads as another number than 0 sets DEFAULT. -/
theorem writeResult_nonzero (r : Reg) (exact value : Int) (s : State) (h : (bits8 exact).toInt = value)
    (hne : value ≠ 0) :
    ∃ v : Byte, v.toInt = value ∧ writeResult r exact s = { s.writeReg r v with cc := .default } := by
  have pattern_ne : bits8 exact ≠ 0#8 := fun h0 => hne (by rw [← h, h0]; rfl)
  refine ⟨bits8 exact, h, ?_⟩
  rw [writeResult, resultCC, if_neg pattern_ne]
  rfl

/-- The register's own value as the result leaves the register as it is. -/
theorem writeResult_readReg (r : Reg) (s : State) :
    writeResult r (sint8 (s.readReg r)) s = s.setCC (resultCC (s.readReg r)) := by
  rw [writeResult, bits8_sint8, State.writeReg_readReg]

theorem resultCC_ne_overflow (res : Byte) : resultCC res ≠ .overflow := by
  rcases resultCC_cases res with h | h <;> simp [h]

theorem addOperand_of_zero (r : Reg) (s : State) : addOperand r 0 s = s.setCC (resultCC (s.readReg r)) := by
  have high := (sint8_range (s.readReg r)).2
  rw [addOperand_writes r 0 s (by omega), Int.add_zero, writeResult_readReg]

theorem subOperand_of_zero (r : Reg) (s : State) :
    subOperand r 0 s =
      s.setCC (if sint8 (s.readReg r) < 0 then .overflow else resultCC (s.readReg r)) := by
  by_cases h : sint8 (s.readReg r) < 0
  · rw [subOperand_rejects r 0 s h, if_pos h]
  · rw [subOperand_writes r 0 s (by omega), Int.sub_zero, writeResult_readReg, if_neg h]

theorem addOperand_cc (r : Reg) (arg : Int) (s : State) :
    (addOperand r arg s).cc =
      if 127 < sint8 (s.readReg r) + arg then .overflow
      else if (addOperand r arg s).readReg r = 0#8 then .zero else .default := by
  by_cases h : 127 < sint8 (s.readReg r) + arg
  · simp [addOperand_rejects r arg s h, h]
  · simp [addOperand_writes r arg s (by omega), h, writeResult, resultCC]

theorem subOperand_cc (r : Reg) (arg : Int) (s : State) :
    (subOperand r arg s).cc =
      if sint8 (s.readReg r) < arg then .overflow
      else if (subOperand r arg s).readReg r = 0#8 then .zero else .default := by
  by_cases h : sint8 (s.readReg r) < arg
  · simp [subOperand_rejects r arg s h, h]
  · simp [subOperand_writes r arg s (by omega), h, writeResult, resultCC]

/-! ### The eight instructions -/

theorem family_of_mem_adds :
    ∀ row ∈ ([(.adda, .a), (.addb, .b), (.addx, .x), (.addy, .y)] : List (Instr × Reg)),
      row.1.family = .add ∧ row.1.target = some row.2 := by
  decide

theorem family_of_mem_subs :
    ∀ row ∈ ([(.suba, .a), (.subb, .b), (.subx, .x), (.suby, .y)] : List (Instr × Reg)),
      row.1.family = .sub ∧ row.1.target = some row.2 := by
  decide

theorem family_of_mem_arithmetic :
    ∀ row ∈ ([(.adda, .a), (.addb, .b), (.addx, .x), (.addy, .y), (.suba, .a), (.subb, .b), (.subx, .x), (.suby, .y)] :
        List (Instr × Reg)),
      (row.1.family = .add ∨ row.1.family = .sub) ∧ row.1.target = some row.2 := by
  decide

theorem exec_add_of_fetch (i : Instr) (r : Reg) (s s' : State) (arg : Int)
    (hi : i.family = .add ∧ i.target = some r) (h : fetchOperand s = .next (arg, s')) :
    exec i s = .next (addOperand r arg s') := by
  rw [exec_of_add i r s hi.1 hi.2]
  exact withOperand_of_fetch s s' arg _ h

theorem exec_sub_of_fetch (i : Instr) (r : Reg) (s s' : State) (arg : Int)
    (hi : i.family = .sub ∧ i.target = some r) (h : fetchOperand s = .next (arg, s')) :
    exec i s = .next (subOperand r arg s') := by
  rw [exec_of_sub i r s hi.1 hi.2]
  exact withOperand_of_fetch s s' arg _ h

theorem target_of_mem_adds (i : Instr) (hi : i ∈ ([.adda, .addb, .addx, .addy] : List Instr)) :
    ∃ r, i.family = .add ∧ i.target = some r := by
  obtain rfl | rfl | rfl | rfl : i = .adda ∨ i = .addb ∨ i = .addx ∨ i = .addy := by simpa using hi
  all_goals exact ⟨_, rfl, rfl⟩

theorem step_add_of_fetch (i : Instr) (r : Reg) (s s' : State) (arg : Int)
    (hi : i.family = .add ∧ i.target = some r) (hf : s.fetches (encode i))
    (h : fetchOperand s.advance = .next (arg, s')) :
    step s = .next (addOperand r arg (s'.latch (opcodeNumber i))) := by
  rw [step_of_encode s i hf]
  exact exec_add_of_fetch i r _ _ arg hi (fetchOperand_latch _ s' arg _ h)

theorem step_sub_of_fetch (i : Instr) (r : Reg) (s s' : State) (arg : Int)
    (hi : i.family = .sub ∧ i.target = some r) (hf : s.fetches (encode i))
    (h : fetchOperand s.advance = .next (arg, s')) :
    step s = .next (subOperand r arg (s'.latch (opcodeNumber i))) := by
  rw [step_of_encode s i hf]
  exact exec_sub_of_fetch i r _ _ arg hi (fetchOperand_latch _ s' arg _ h)

/-- An arithmetic effect is the operand fetch, and then CC alone or CC with the named register. -/
theorem Effect.arithmetic_cases {i : Instr} {s t : State} (h : Effect i s t)
    (hi : i.family = .add ∨ i.family = .sub) :
    t = s.advance.setCC .overflow ∨
      ∃ r res, i.target = some r ∧ t = (s.advance.writeReg r res).setCC (resultCC res) := by
  cases h with
  | add _ r _ s' arg hf ht hs =>
    rw [fetchOperand_state s s' arg hs]
    exact (addOperand_cases r arg s.advance).imp_right fun ⟨res, h⟩ => ⟨r, res, ht, h⟩
  | sub _ r _ s' arg hf ht hs =>
    rw [fetchOperand_state s s' arg hs]
    exact (subOperand_cases r arg s.advance).imp_right fun ⟨res, h⟩ => ⟨r, res, ht, h⟩
  | pushRegister _ _ _ hf | pop _ _ _ hf | unimplemented _ _ hf => simp [hf] at hi
  | pushImmediate | halt => simp [Instr.family] at hi

theorem Effect.cc_of_not_arithmetic {i : Instr} {s t : State} (h : Effect i s t)
    (hi : i.family ≠ .add ∧ i.family ≠ .sub) : t.cc = s.cc := by
  cases h with
  | add _ _ _ _ _ hf => exact absurd hf hi.1
  | sub _ _ _ _ _ hf => exact absurd hf hi.2
  | pushImmediate _ s' arg hs => rw [pushHandler_cc, fetchOperand_state s s' arg hs, State.advance_cc]
  | pushRegister => exact pushHandler_cc _ s
  | pop => exact popHandler_cc _ s
  | halt => rfl
  | unimplemented => rfl

/-! ### The obligations -/

/-- Settles O21: row by row, the guard and the pattern of the sum. -/
theorem addOutcomes : Obligations.AddOutcomes := by
  intro row hrow s s' arg hs sum
  have hx := exec_add_of_fetch row.1 row.2 s s' arg (family_of_mem_adds row hrow) hs
  have hsum : sint8 (s'.readReg row.2) + arg = sum := by rw [fetchOperand_readReg s s' arg hs]; rfl
  have writes : sum ≤ 127 → exec row.1 s = .next (writeResult row.2 sum s') := fun h => by
    rw [hx, addOperand_writes row.2 arg s' (hsum ▸ h), hsum]
  refine ⟨fun h => ?_, fun h => ?_, fun low high hne => ?_, fun low high => ?_, fun h => ?_⟩
  · rw [hx, addOperand_rejects row.2 arg s' (by omega)]
    rfl
  · rw [writes (by omega), writeResult_zero row.2 sum s' (by rw [h]; rfl)]
  · rw [writes high]
    obtain ⟨v, hv, hw⟩ := writeResult_nonzero row.2 sum sum s' (bits8_inRange sum low high) hne
    exact ⟨v, hv, congrArg _ hw⟩
  · rw [writes (by omega)]
    obtain ⟨v, hv, hw⟩ := writeResult_nonzero row.2 sum _ s' (bits8_below sum (by omega) high) (by omega)
    exact ⟨v, hv, congrArg _ hw⟩
  · rw [writes (by omega), writeResult_zero row.2 sum s' (by rw [h]; rfl)]

/-- Settles O22: row by row, the guard and the pattern of the difference. -/
theorem subOutcomes : Obligations.SubOutcomes := by
  intro row hrow s s' arg hs difference
  have hx := exec_sub_of_fetch row.1 row.2 s s' arg (family_of_mem_subs row hrow) hs
  have hreg : s'.readReg row.2 = s.readReg row.2 := fetchOperand_readReg s s' arg hs row.2
  have writes : 0 ≤ difference → exec row.1 s = .next (writeResult row.2 difference s') := fun h => by
    rw [hx, subOperand_writes row.2 arg s' (by rw [hreg]; exact Int.sub_nonneg.mp h), hreg]
    rfl
  refine ⟨fun h => ?_, fun h => ?_, fun low high => ?_, fun low high => ?_⟩
  · rw [hx, subOperand_rejects row.2 arg s' (by rw [hreg]; exact h)]
    rfl
  · rw [writes (by omega), writeResult_zero row.2 difference s' (by rw [h]; rfl)]
  · rw [writes (by omega)]
    obtain ⟨v, hv, hw⟩ :=
      writeResult_nonzero row.2 difference _ s' (bits8_inRange difference (by omega) high) (by omega)
    exact ⟨v, hv, congrArg _ hw⟩
  · rw [writes (by omega)]
    obtain ⟨v, hv, hw⟩ := writeResult_nonzero row.2 difference _ s' (bits8_above difference low (by omega)) (by omega)
    exact ⟨v, hv, congrArg _ hw⟩

/-- Settles O23. -/
theorem operandsAreSignedBytes : Obligations.OperandsAreSignedBytes :=
  ⟨fetchOperand_range, fun s r => sint8_range (s.readReg r)⟩

/-- Settles O24: operand 0 gives back the register's own pattern. -/
theorem operandZeroOutcomes : Obligations.OperandZeroOutcomes := by
  refine ⟨fun row hrow s s' hs => ?_, fun row hrow s s' hs => ?_⟩
  · rw [exec_add_of_fetch row.1 row.2 s s' 0 (family_of_mem_adds row hrow) hs, addOperand_of_zero,
      fetchOperand_readReg s s' 0 hs]
    rfl
  · rw [exec_sub_of_fetch row.1 row.2 s s' 0 (family_of_mem_subs row hrow) hs, subOperand_of_zero,
      fetchOperand_readReg s s' 0 hs]
    rfl

/-- Settles O25: after the operand fetch an arithmetic effect writes CC and at most the named register. -/
theorem arithmeticFrame : Obligations.ArithmeticFrame := by
  intro row hrow s t hx
  obtain ⟨hi, ht⟩ := family_of_mem_arithmetic row hrow
  have eff := exec_effect row.1 s t hx
  refine ⟨fun r hr => eff.readReg_other r (by rw [ht]; exact fun h => hr (Option.some.inj h).symm), ?_⟩
  rcases eff.arithmetic_cases hi with rfl | ⟨r, res, -, rfl⟩
  · simp [State.load]
  · simp [State.load]

/-- Settles O34: an opcode element is operand 0, and no add of 0 rejects where a subtract of 0 from a negative register
does. -/
theorem mismatchComesBeforeTheHandlersTest : Obligations.MismatchComesBeforeTheHandlersTest := by
  intro s op pos he
  have hs : fetchOperand s = .next (0, s.advance) := by
    rw [fetchOperand_element s _ pos he, operandValue_opcodeElement]
  refine ⟨fun hsp => ?_, fun i hi => ?_, fun row hrow hneg => ?_⟩
  · exact (withOperand_of_fetch s _ 0 _ hs).trans (congrArg _ (pushHandler_full _ s.advance hsp))
  · obtain ⟨r, hr⟩ := target_of_mem_adds i hi
    refine ⟨_, exec_add_of_fetch i r s s.advance 0 hr hs, ?_⟩
    rw [addOperand_of_zero, State.setCC_cc]
    exact resultCC_ne_overflow _
  · rw [operandZeroOutcomes.2 row hrow s s.advance hs, if_pos hneg]
    rfl

/-- Settles O38: the handlers' condition codes carried to the step, and the effects that keep CC. -/
theorem ccAfterEachStep : Obligations.CCAfterEachStep := by
  have latched : ∀ (s s' : State) (arg : Int) (op : Byte) (r : Reg), fetchOperand s.advance = .next (arg, s') →
      (s'.latch op).readReg r = s.readReg r := fun s s' arg op r hs => by
    rw [State.readReg_latch, fetchOperand_readReg s.advance s' arg hs, State.readReg_advance]
  refine ⟨fun row hrow s s' arg hf hs => ?_, fun row hrow s s' arg hf hs => ?_, fun s t h hi => ?_⟩
  · refine ⟨_, step_add_of_fetch row.1 row.2 s s' arg (family_of_mem_adds row hrow) hf hs, ?_⟩
    rw [addOperand_cc, latched s s' arg _ row.2 hs]
    rfl
  · refine ⟨_, step_sub_of_fetch row.1 row.2 s s' arg (family_of_mem_subs row hrow) hf hs, ?_⟩
    rw [subOperand_cc, latched s s' arg _ row.2 hs]
    rfl
  · cases (step_eq_next_iff s t).mp h with
    | halted | empty | stray | reserved => rfl
    | instr _ i hf eff => exact eff.cc_of_not_arithmetic (hi i hf)

end Sys2Proof.Machine
end

section
/-! SUPPORT. Pushes followed by pops (42_stack.md section 3, 20_memory.md section 3). -/

namespace Sys2Proof.Machine

/-! ### One push and one pop -/

theorem pushHandler_mem_wf (v : Byte) (s : State) (hwf : s.mem.wf = true) : (pushHandler v s).mem.wf = true := by
  by_cases h : s.sp = 0#8
  · rwa [pushHandler_full v s h]
  · rw [pushHandler_stores v s h]
    exact Memory.write_wf s.mem s.sp v hwf

theorem store_load (s : State) (addr addr' v : Byte) (hwf : s.mem.wf = true) :
    (s.store addr v).load addr' = if addr' = addr then v else s.load addr' :=
  Memory.read_write s.mem addr addr' v hwf

theorem pushHandler_load_top (v : Byte) (s : State) (hwf : s.mem.wf = true) (hsp : s.sp ≠ 0#8) :
    (pushHandler v s).load ((pushHandler v s).sp + 1#8) = v := by
  rw [pushHandler_stores v s hsp, State.setSP_sp, BitVec.sub_add_cancel]
  exact (store_load s s.sp s.sp v hwf).trans (if_pos rfl)

theorem popHandler_readReg_same (r : Reg) (s : State) (h : s.sp ≠ 255#8) :
    (popHandler r s).readReg r = s.load (s.sp + 1#8) := by
  rw [popHandler_loads r s h, State.readReg_writeReg_same]

/-- A push that stores and then a pop leave the stored cell, and the value in the register. -/
theorem popHandler_pushHandler (r : Reg) (v : Byte) (s : State) (hwf : s.mem.wf = true) (hsp : s.sp ≠ 0#8) :
    popHandler r (pushHandler v s) = (s.store s.sp v).writeReg r v := by
  have top := pushHandler_load_top v s hwf hsp
  have hsp' : (pushHandler v s).sp = s.sp - 1#8 := by rw [pushHandler_stores v s hsp, State.setSP_sp]
  have not_empty : s.sp - 1#8 ≠ 255#8 := by bv_omega
  rw [popHandler_loads r _ (hsp' ▸ not_empty), top, hsp', BitVec.sub_add_cancel, pushHandler_stores v s hsp]
  rfl

theorem families_of_mem_pushPops :
    ∀ row ∈ ([(.pusha, .popa, .a), (.pushb, .popb, .b), (.pushx, .popx, .x), (.pushy, .popy, .y)] :
        List (Instr × Instr × Reg)),
      (row.1.family = .pushr ∧ row.1.target = some row.2.2) ∧ row.2.1.family = .popr ∧ row.2.1.target = some row.2.2 := by
  decide

theorem family_of_mem_registerPushes :
    ∀ row ∈ ([(.pusha, .a), (.pushb, .b), (.pushx, .x), (.pushy, .y)] : List (Instr × Reg)),
      row.1.family = .pushr ∧ row.1.target = some row.2 := by
  decide

theorem exec_pushi_of_fetch (s s' : State) (arg : Int) (h : fetchOperand s = .next (arg, s')) :
    exec .pushi s = .next (pushHandler (bits8 arg) s') :=
  withOperand_of_fetch s s' arg _ h

/-- The pattern pushed for an operand reads back as the operand. -/
theorem bits8_of_fetch (s s' : State) (arg : Int) (h : fetchOperand s = .next (arg, s')) : (bits8 arg).toInt = arg := by
  obtain ⟨low, high⟩ := fetchOperand_range s s' arg h
  exact bits8_inRange arg low high

/-! ### Many pushes and many pops -/

/-- Pushes leave the cells above SP alone. -/
theorem pushAll_load_above (vs : List Byte) (s : State) (addr : Byte) (hwf : s.mem.wf = true)
    (h : s.sp.toNat < addr.toNat) : (pushAll vs s).load addr = s.load addr := by
  induction vs generalizing s with
  | nil => rfl
  | cons v vs ih =>
    have lower : (pushHandler v s).sp.toNat < addr.toNat := by rw [pushHandler_sp_toNat]; omega
    have other : addr ≠ s.sp := by bv_omega
    rw [pushAll, ih _ (pushHandler_mem_wf v s hwf) lower, pushHandler_load_other v s addr hwf (.inl other)]

theorem popAll_mem (r : Reg) (k : Nat) (s : State) : (popAll r k s).2.mem = s.mem := by
  induction k generalizing s with
  | zero => rfl
  | succ k ih => exact (ih _).trans (popHandler_mem r s)

/-- The last of k + 1 pops follows the first k. -/
theorem popAll_succ (r : Reg) (k : Nat) (s : State) :
    popAll r (k + 1) s =
      ((popAll r k s).1 ++ [(popHandler r (popAll r k s).2).readReg r], popHandler r (popAll r k s).2) := by
  induction k generalizing s with
  | zero => rfl
  | succ k ih => rw [popAll, ih (popHandler r s)]; rfl

/-! ### The obligations -/

/-- Settles O27. -/
theorem pushImmediateStoresItsOperand : Obligations.PushImmediateStoresItsOperand := by
  intro s s' arg hs
  refine ⟨bits8 arg, bits8_of_fetch s s' arg hs, ?_⟩
  rw [exec_pushi_of_fetch s s' arg hs, pushHandler_eq, fetchOperand_state s s' arg hs]
  rfl

/-- Settles O30: the register pushes and `PUSHi` by the one fact about the push handler. -/
theorem pushedValueIsOnTop : Obligations.PushedValueIsOnTop := by
  refine ⟨fun row hrow s hwf hsp => ?_, fun s s' arg hwf hsp hs => ?_⟩
  · obtain ⟨hf, ht⟩ := family_of_mem_registerPushes row hrow
    exact ⟨_, exec_of_pushr row.1 row.2 s hf ht, pushHandler_load_top _ s hwf hsp⟩
  · obtain rfl := fetchOperand_state s s' arg hs
    refine ⟨_, exec_pushi_of_fetch s _ arg hs, ?_⟩
    rw [pushHandler_load_top (bits8 arg) s.advance hwf hsp, bits8_of_fetch s _ arg hs]

/-- Settles O32: a push that stores and its pop leave the store alone; on the full stack there is only the pop. -/
theorem pushThenPopRoundTrip : Obligations.PushThenPopRoundTrip := by
  intro row hrow s hwf
  obtain ⟨⟨hpush, htarget⟩, hpop, htarget'⟩ := families_of_mem_pushPops row hrow
  refine ⟨_, _, exec_of_pushr row.1 row.2.2 s hpush htarget, exec_of_popr row.2.1 row.2.2 _ hpop htarget',
    fun hsp => ?_, fun hsp => ?_⟩
  · have only_store : popHandler row.2.2 (pushHandler (s.readReg row.2.2) s) = s.store s.sp (s.readReg row.2.2) := by
      rw [popHandler_pushHandler row.2.2 _ s hwf hsp]
      exact (s.store s.sp (s.readReg row.2.2)).writeReg_readReg row.2.2
    rw [only_store]
    exact ⟨rfl, by rw [store_load s _ _ _ hwf, if_pos rfl], fun addr ha => by rw [store_load s _ _ _ hwf, if_neg ha]⟩
  · have not_empty : s.sp ≠ 255#8 := by rw [hsp]; decide
    rw [pushHandler_full _ s hsp, popHandler_loads _ s not_empty, hsp]
    rfl

/-- Settles O33: by induction on the values; the first one pushed is above the others' cells, and popped last. -/
theorem lastInFirstOut : Obligations.LastInFirstOut := by
  intro r vs
  induction vs with
  | nil => exact fun s _ _ => ⟨rfl, rfl⟩
  | cons v vs ih =>
    intro s hwf hlen
    rw [List.length_cons] at hlen
    have hsp : s.sp ≠ 0#8 := by bv_omega
    have hpush := pushHandler_sp_toNat v s
    have hwf' := pushHandler_mem_wf v s hwf
    obtain ⟨values, restored⟩ := ih (pushHandler v s) hwf' (by omega)
    have not_empty : (pushHandler v s).sp ≠ 255#8 := by bv_omega
    have top : (popAll r vs.length (pushAll vs (pushHandler v s))).2.load ((pushHandler v s).sp + 1#8) = v := by
      rw [State.load, popAll_mem, ← State.load, pushAll_load_above vs _ _ hwf' (by bv_omega),
        pushHandler_load_top v s hwf hsp]
    rw [List.length_cons, pushAll, popAll_succ, popHandler_readReg_same r _ (restored ▸ not_empty), restored, top, values]
    refine ⟨(List.reverse_cons ..).symm, BitVec.eq_of_toNat_eq ?_⟩
    rw [popHandler_sp_toNat, restored, hpush]
    omega

end Sys2Proof.Machine
end

section
/-! SUPPORT. What a step does not read: relations between two states that every operation keeps are kept by every meaning
and every step, and CC, HCAUSE, a register not named and the dead stack cells each give such a relation. -/

namespace Sys2Proof.Machine

/-! ### Simulations -/

/-- `R` is kept by every operation of the machine that names a register of `regs` or none, and related states agree on what
decides a step's course: RUN, the elements to come and the registers of `regs`. -/
structure Simulation (regs : Reg → Prop) (R : State → State → Prop) : Prop where
  control {s s'} : R s s' → s'.run = s.run ∧ s'.stream = s.stream ∧ s'.n = s.n
  readReg {s s'} : R s s' → ∀ r, regs r → s'.readReg r = s.readReg r
  advance {s s'} : R s s' → R s.advance s'.advance
  latch {s s'} : R s s' → ∀ op, R (s.latch op) (s'.latch op)
  clearIR {s s'} : R s s' → R s.clearIR s'.clearIR
  haltWith {s s'} : R s s' → ∀ c, R (s.haltWith c) (s'.haltWith c)
  setCC {s s'} : R s s' → ∀ c, R (s.setCC c) (s'.setCC c)
  writeReg {s s'} : R s s' → ∀ r v, regs r → R (s.writeReg r v) (s'.writeReg r v)
  push {s s'} : R s s' → ∀ v, R (pushHandler v s) (pushHandler v s')
  pop {s s'} : R s s' → ∀ r, regs r → R (popHandler r s) (popHandler r s')

section
variable {regs : Reg → Prop} {R : State → State → Prop} (sim : Simulation regs R)
include sim

theorem Simulation.nextElement {s s' : State} (h : R s s') : s'.nextElement = s.nextElement := by
  obtain ⟨-, hstream, hn⟩ := sim.control h
  rw [State.nextElement, hstream, hn, State.nextElement]

theorem Simulation.fetches {s s' : State} (h : R s s') (e : Element) (hf : s.fetches e) : s'.fetches e := by
  obtain ⟨hrun, -, hn⟩ := sim.control h
  obtain ⟨hr, pos, he⟩ := hf
  exact ⟨hrun.trans hr, hn ▸ pos, (sim.nextElement h).trans he⟩

theorem Simulation.fetchOperand {s s' u : State} {arg : Int} (h : R s s') (hs : fetchOperand s = .next (arg, u)) :
    ∃ u', fetchOperand s' = .next (arg, u') ∧ R u u' := by
  rcases fetchOperand_next s u arg hs with ⟨hn, rfl, rfl⟩ | ⟨e, pos, he, rfl, rfl⟩
  · exact ⟨s', fetchOperand_empty s' ((sim.control h).2.2.trans hn), h⟩
  · exact ⟨s'.advance, fetchOperand_element s' e ((sim.control h).2.2 ▸ pos) ((sim.nextElement h).trans he), sim.advance h⟩

theorem Simulation.writeResult {s s' : State} (h : R s s') (r : Reg) (exact : Int) (hr : regs r) :
    R (writeResult r exact s) (writeResult r exact s') :=
  sim.setCC (sim.writeReg h r _ hr) _

theorem Simulation.addOperand {s s' : State} (h : R s s') (r : Reg) (arg : Int) (hr : regs r) :
    R (addOperand r arg s) (addOperand r arg s') := by
  have hreg := sim.readReg h r hr
  by_cases hc : 127 < sint8 (s.readReg r) + arg
  · rw [addOperand_rejects r arg s hc, addOperand_rejects r arg s' (hreg ▸ hc)]
    exact sim.setCC h _
  · rw [addOperand_writes r arg s (by omega), addOperand_writes r arg s' (by rw [hreg]; omega), hreg]
    exact sim.writeResult h r _ hr

theorem Simulation.subOperand {s s' : State} (h : R s s') (r : Reg) (arg : Int) (hr : regs r) :
    R (subOperand r arg s) (subOperand r arg s') := by
  have hreg := sim.readReg h r hr
  by_cases hc : sint8 (s.readReg r) < arg
  · rw [subOperand_rejects r arg s hc, subOperand_rejects r arg s' (hreg ▸ hc)]
    exact sim.setCC h _
  · rw [subOperand_writes r arg s (by omega), subOperand_writes r arg s' (by rw [hreg]; omega), hreg]
    exact sim.writeResult h r _ hr

/-- A simulation is kept by the effect of every instruction whose register, if it names one, is of `regs`. -/
theorem Simulation.effect {i : Instr} {s s' t : State} (h : R s s') (hi : ∀ r, i.target = some r → regs r)
    (eff : Effect i s t) : ∃ t', Effect i s' t' ∧ R t t' := by
  cases eff with
  | add _ r _ u arg hf ht hs =>
    obtain ⟨u', hs', hu⟩ := sim.fetchOperand h hs
    exact ⟨_, .add i r s' u' arg hf ht hs', sim.addOperand hu r arg (hi r ht)⟩
  | sub _ r _ u arg hf ht hs =>
    obtain ⟨u', hs', hu⟩ := sim.fetchOperand h hs
    exact ⟨_, .sub i r s' u' arg hf ht hs', sim.subOperand hu r arg (hi r ht)⟩
  | pushImmediate _ u arg hs =>
    obtain ⟨u', hs', hu⟩ := sim.fetchOperand h hs
    exact ⟨_, .pushImmediate s' u' arg hs', sim.push hu _⟩
  | pushRegister _ r _ hf ht =>
    exact ⟨_, .pushRegister i r s' hf ht, by rw [sim.readReg h r (hi r ht)]; exact sim.push h _⟩
  | pop _ r _ hf ht => exact ⟨_, .pop i r s' hf ht, sim.pop h r (hi r ht)⟩
  | halt => exact ⟨_, .halt s', sim.haltWith h _⟩
  | unimplemented _ _ hf => exact ⟨_, .unimplemented i s' hf, sim.haltWith h _⟩

end

/-- A simulation over all registers is kept by every step. -/
theorem Simulation.step {R : State → State → Prop} (sim : Simulation (fun _ => True) R) {s s' t : State} (h : R s s')
    (hs : step s = .next t) : ∃ t', step s' = .next t' ∧ R t t' := by
  obtain ⟨hrun, -, hn⟩ := sim.control h
  cases (step_eq_next_iff s t).mp hs with
  | halted hr => exact ⟨s', step_of_halted s' (hrun.trans hr), h⟩
  | empty hr h0 => exact ⟨_, step_of_empty s' (hrun.trans hr) (hn.trans h0), sim.haltWith (sim.clearIR h) _⟩
  | stray v hf => exact ⟨_, step_of_operandElement s' v (sim.fetches h _ hf), sim.advance h⟩
  | reserved op hop hf =>
    exact ⟨_, step_of_reserved s' op hop (sim.fetches h _ hf), sim.haltWith (sim.latch (sim.advance h) op) _⟩
  | instr _ i hf eff =>
    obtain ⟨t', eff', ht⟩ := sim.effect (sim.latch (sim.advance h) _) (fun _ _ => trivial) eff
    exact ⟨t', (step_eq_next_iff s' t').mpr (.instr t' i (sim.fetches h _ hf) eff'), ht⟩

/-! ### Updates that the stack handlers do not see -/

/-- An update that leaves SP and commutes with the writes of a push commutes with the push. -/
theorem pushHandler_update_comm (f : State → State) (hsp : ∀ s, (f s).sp = s.sp)
    (hstore : ∀ s addr v, (f s).store addr v = f (s.store addr v)) (hset : ∀ s v, (f s).setSP v = f (s.setSP v))
    (v : Byte) (s : State) : pushHandler v (f s) = f (pushHandler v s) := by
  by_cases h : s.sp = 0#8
  · rw [pushHandler_full v s h, pushHandler_full v (f s) ((hsp s).trans h)]
  · rw [pushHandler_stores v s h, pushHandler_stores v (f s) (hsp s ▸ h), hsp, hstore, hset]

/-- An update that leaves SP and memory and commutes with the writes of a pop commutes with the pop. -/
theorem popHandler_update_comm (f : State → State) (r : Reg) (hsp : ∀ s, (f s).sp = s.sp)
    (hload : ∀ s addr, (f s).load addr = s.load addr) (hset : ∀ s v, (f s).setSP v = f (s.setSP v))
    (hwrite : ∀ s v, (f s).writeReg r v = f (s.writeReg r v)) (s : State) :
    popHandler r (f s) = f (popHandler r s) := by
  by_cases h : s.sp = 255#8
  · rw [popHandler_empty r s h, popHandler_empty r (f s) ((hsp s).trans h), hwrite]
  · rw [popHandler_loads r s h, popHandler_loads r (f s) (hsp s ▸ h), hsp, hload, hset, hwrite]

/-! ### CC and HCAUSE -/

/-- Equal, or equal after the update `f` of the first state. -/
def SameUpTo (f : State → State) (s s' : State) : Prop := s' = s ∨ s' = f s

/-- An operation that commutes with `f` keeps the relation. -/
theorem SameUpTo.map {f : State → State} (op : State → State) {s s' : State} (h : SameUpTo f s s')
    (comm : op (f s) = f (op s)) : SameUpTo f (op s) (op s') := by
  rcases h with rfl | rfl
  · exact .inl rfl
  · exact .inr comm

/-- An operation that overwrites what `f` wrote makes the two states equal. -/
theorem SameUpTo.erase {f : State → State} (op : State → State) {s s' : State} (h : SameUpTo f s s')
    (overwrites : op (f s) = op s) : SameUpTo f (op s) (op s') := by
  rcases h with rfl | rfl
  · exact .inl rfl
  · exact .inl overwrites

/-- Another CC is left as it was or overwritten by the same value. -/
theorem simulation_setCC (c : CC) : Simulation (fun _ => True) (SameUpTo (State.setCC · c)) where
  control h := by rcases h with rfl | rfl <;> exact ⟨rfl, rfl, rfl⟩
  readReg h r _ := by rcases h with rfl | rfl <;> simp
  advance h := h.map State.advance rfl
  latch h op := h.map (State.latch · op) rfl
  clearIR h := h.map State.clearIR rfl
  haltWith h cause := h.map (State.haltWith · cause) rfl
  setCC h d := h.erase (State.setCC · d) rfl
  writeReg {s _} h r v _ := h.map (State.writeReg · r v) (s.writeReg_setCC r v c).symm
  push {s _} h v := h.map (pushHandler v)
    (pushHandler_update_comm (State.setCC · c) (fun _ => rfl) (fun _ _ _ => rfl) (fun _ _ => rfl) v s)
  pop {s _} h r _ := h.map (popHandler r)
    (popHandler_update_comm (State.setCC · c) r (fun _ => rfl) (fun _ _ => rfl) (fun _ _ => rfl)
      (fun u v => (u.writeReg_setCC r v c).symm) s)

/-- HCAUSE <- c alone: no operation of the machine does this, `State.haltWith` also halts. -/
def State.setHCause (s : State) (c : HaltCause) : State := { s with hcause := c }

theorem State.writeReg_setHCause (s : State) (r : Reg) (v : Byte) (c : HaltCause) :
    (s.writeReg r v).setHCause c = (s.setHCause c).writeReg r v := by
  cases r <;> rfl

theorem State.readReg_setHCause (s : State) (r : Reg) (c : HaltCause) : (s.setHCause c).readReg r = s.readReg r := by
  cases r <;> rfl

/-- Another halt cause is left as it was or overwritten by the same value. -/
theorem simulation_setHCause (c : HaltCause) : Simulation (fun _ => True) (SameUpTo (State.setHCause · c)) where
  control h := by rcases h with rfl | rfl <;> exact ⟨rfl, rfl, rfl⟩
  readReg h r _ := by rcases h with rfl | rfl <;> simp [State.readReg_setHCause]
  advance h := h.map State.advance rfl
  latch h op := h.map (State.latch · op) rfl
  clearIR h := h.map State.clearIR rfl
  haltWith h cause := h.erase (State.haltWith · cause) rfl
  setCC h d := h.map (State.setCC · d) rfl
  writeReg {s _} h r v _ := h.map (State.writeReg · r v) (s.writeReg_setHCause r v c).symm
  push {s _} h v := h.map (pushHandler v)
    (pushHandler_update_comm (State.setHCause · c) (fun _ => rfl) (fun _ _ _ => rfl) (fun _ _ => rfl) v s)
  pop {s _} h r _ := h.map (popHandler r)
    (popHandler_update_comm (State.setHCause · c) r (fun _ => rfl) (fun _ _ => rfl) (fun _ _ => rfl)
      (fun u v => (u.writeReg_setHCause r v c).symm) s)

/-! ### A register not named -/

/-- A pop does not read its own register. -/
theorem popHandler_writeReg_same (r : Reg) (s : State) (w : Byte) : popHandler r (s.writeReg r w) = popHandler r s := by
  cases r <;> rfl

theorem State.load_writeReg (s : State) (r : Reg) (v addr : Byte) : (s.writeReg r v).load addr = s.load addr :=
  congrArg (Memory.read · addr) (s.writeReg_mem r v)

/-- Another value in `r` is neither read nor overwritten by what names other registers. -/
theorem simulation_writeReg (r : Reg) (v : Byte) : Simulation (· ≠ r) (fun s s' => s' = s.writeReg r v) where
  control := by rintro s _ rfl; simp
  readReg := by rintro s _ rfl q hq; exact s.readReg_writeReg_other r q v hq.symm
  advance := by rintro s _ rfl; exact s.writeReg_advance r v
  latch := by rintro s _ rfl op; exact s.writeReg_latch r v op
  clearIR := by rintro s _ rfl; exact s.writeReg_clearIR r v
  haltWith := by rintro s _ rfl c; exact s.writeReg_haltWith r v c
  setCC := by rintro s _ rfl c; exact s.writeReg_setCC r v c
  writeReg := by rintro s _ rfl q w hq; exact s.writeReg_writeReg_comm r q v w hq.symm
  push := by
    rintro s _ rfl w
    exact pushHandler_update_comm (State.writeReg · r v) (State.writeReg_sp · r v)
      (State.writeReg_store · r v) (State.writeReg_setSP · r v) w s
  pop := by
    rintro s _ rfl q hq
    exact popHandler_update_comm (State.writeReg · r v) q (State.writeReg_sp · r v) (State.load_writeReg · r v)
      (State.writeReg_setSP · r v) (fun u w => u.writeReg_writeReg_comm r q v w hq.symm) s

/-! ### The dead stack cells -/

/-- The state with another memory. -/
def State.withMemory (s : State) (m : Memory) : State := { s with mem := m }

/-- Canonical memories that differ at most in the cells at or below SP. -/
def SameLiveStack (s s' : State) : Prop :=
  ∃ m, s' = s.withMemory m ∧ s.mem.wf = true ∧ m.wf = true ∧ ∀ addr, s.sp < addr → m.read addr = s.load addr

theorem sameLiveStack_iff (s s' : State) :
    SameLiveStack s s' ↔ s.mem.wf = true ∧ s'.mem.wf = true ∧ s.sameLiveStack s' := by
  constructor
  · rintro ⟨m, rfl, hwf, hwf', live⟩
    exact ⟨hwf, hwf', rfl, live⟩
  · rintro ⟨hwf, hwf', heq, live⟩
    exact ⟨s'.mem, heq, hwf, hwf', live⟩

theorem SameLiveStack.writeReg {s s' : State} (h : SameLiveStack s s') (r : Reg) (v : Byte) :
    SameLiveStack (s.writeReg r v) (s'.writeReg r v) := by
  obtain ⟨m, rfl, hwf, hwf', live⟩ := h
  cases r <;> exact ⟨m, rfl, hwf, hwf', live⟩

/-- A push that stores makes the cell it has just written live. -/
theorem SameLiveStack.push {s s' : State} (h : SameLiveStack s s') (v : Byte) :
    SameLiveStack (pushHandler v s) (pushHandler v s') := by
  obtain ⟨m, rfl, hwf, hwf', live⟩ := h
  by_cases h0 : s.sp = 0#8
  · rw [pushHandler_full v s h0, pushHandler_full v (s.withMemory m) h0]
    exact ⟨m, rfl, hwf, hwf', live⟩
  · rw [pushHandler_stores v s h0, pushHandler_stores v (s.withMemory m) h0]
    refine ⟨m.write s.sp v, rfl, Memory.write_wf _ _ _ hwf, Memory.write_wf _ _ _ hwf', fun addr above => ?_⟩
    have from_sp : s.sp - 1#8 < addr := above
    rw [Memory.read_write m s.sp addr v hwf']
    refine Eq.trans ?_ (store_load s s.sp addr v hwf).symm
    split
    · rfl
    · next other => exact live addr (by bv_omega)

theorem SameLiveStack.pop {s s' : State} (h : SameLiveStack s s') (r : Reg) :
    SameLiveStack (popHandler r s) (popHandler r s') := by
  obtain ⟨m, rfl, hwf, hwf', live⟩ := id h
  by_cases h255 : s.sp = 255#8
  · rw [popHandler_empty r s h255, popHandler_empty r (s.withMemory m) h255]
    exact h.writeReg r 0#8
  · rw [popHandler_loads r s h255, popHandler_loads r (s.withMemory m) h255]
    have top : (s.withMemory m).load (s.sp + 1#8) = s.load (s.sp + 1#8) := live _ (by bv_omega)
    have raised : SameLiveStack (s.setSP (s.sp + 1#8)) ((s.withMemory m).setSP (s.sp + 1#8)) :=
      ⟨m, rfl, hwf, hwf', fun addr (above : s.sp + 1#8 < addr) => live addr (by bv_omega)⟩
    exact top ▸ raised.writeReg r _

theorem simulation_sameLiveStack : Simulation (fun _ => True) SameLiveStack where
  control := by rintro s _ ⟨m, rfl, -⟩; exact ⟨rfl, rfl, rfl⟩
  readReg := by rintro s _ ⟨m, rfl, -⟩ r -; cases r <;> rfl
  advance := fun ⟨m, h, rest⟩ => ⟨m, congrArg State.advance h, rest⟩
  latch := fun ⟨m, h, rest⟩ op => ⟨m, congrArg (State.latch · op) h, rest⟩
  clearIR := fun ⟨m, h, rest⟩ => ⟨m, congrArg State.clearIR h, rest⟩
  haltWith := fun ⟨m, h, rest⟩ c => ⟨m, congrArg (State.haltWith · c) h, rest⟩
  setCC := fun ⟨m, h, rest⟩ c => ⟨m, congrArg (State.setCC · c) h, rest⟩
  writeReg h r v _ := h.writeReg r v
  push h v := h.push v
  pop h r _ := h.pop r

/-! ### The obligations -/

/-- Settles O40: by the simulation of a state by itself with another CC. -/
theorem noStepReadsCC : Obligations.NoStepReadsCC := by
  intro s t c h
  obtain ⟨t', ht, rfl | rfl⟩ := (simulation_setCC c).step (s' := s.setCC c) (.inr rfl) h
  · exact .inl ht
  · exact .inr ht

/-- Settles O41: by the simulation of a state by itself with another halt cause. -/
theorem noStepReadsHaltCause : Obligations.NoStepReadsHaltCause := by
  intro s t c h
  obtain ⟨t', ht, rfl | rfl⟩ := (simulation_setHCause c).step (s' := s.setHCause c) (.inr rfl) h
  · exact .inl ht
  · exact .inr ht

/-- Settles O42: sameness of the live stack is a simulation between canonical memories. -/
theorem noStepDependsOnDeadStackCells : Obligations.NoStepDependsOnDeadStackCells := by
  intro s s' t hwf hwf' hlive h
  obtain ⟨t', ht, same⟩ := simulation_sameLiveStack.step ((sameLiveStack_iff s s').mpr ⟨hwf, hwf', hlive⟩) h
  obtain ⟨-, -, live⟩ := (sameLiveStack_iff t t').mp same
  exact ⟨t', ht, live⟩

/-- Settles O36: the simulation of a register not named, the pop's own register, and the frames of pushes and rejections. -/
theorem registersReadAndWritten : Obligations.RegistersReadAndWritten := by
  refine ⟨fun i s t r v hr hx => ?_, fun row hrow s v => ?_, fun i hmem s t r hx => ?_, fun i s t r hi hx hcc => ?_⟩
  · have eff := exec_effect i s t hx
    obtain ⟨_, eff', rfl⟩ :=
      (simulation_writeReg r v).effect (s' := s.writeReg r v) rfl (fun q hq hqr => hr (hqr ▸ hq)) eff
    exact ⟨eff.readReg_other r hr, exec_of_effect i _ _ eff'⟩
  · obtain ⟨hf, ht⟩ := family_of_mem_pops row hrow
    rw [exec_of_popr row.1 row.2 _ hf ht, exec_of_popr row.1 row.2 s hf ht, popHandler_writeReg_same]
  · have hi := family_of_mem_pushes i (List.mem_cons_of_mem _ hmem)
    exact ((exec_effect i s t hx).push_keeps hi).1 r
  · rcases (exec_effect i s t hx).arithmetic_cases hi with rfl | ⟨q, res, -, rfl⟩
    · simp
    · exact absurd hcc (resultCC_ne_overflow res)

end Sys2Proof.Machine
end

section
/-! SUPPORT. What a step can do to memory, CC and the halt cause, and so the machine's invariant (10_state.md sections 3, 6
to 8, 20_memory.md). -/

namespace Sys2Proof.Machine

/-! ### Memory -/

theorem pushHandler_mem_cases (v : Byte) (s : State) :
    (pushHandler v s).mem = s.mem ∨ s.sp ≠ 0#8 ∧ (pushHandler v s).mem = s.mem.write s.sp v := by
  by_cases h : s.sp = 0#8
  · exact .inl (by rw [pushHandler_full v s h])
  · exact .inr ⟨h, by rw [pushHandler_stores v s h]; rfl⟩

/-- A meaning writes at most the cell at SP, and no cell where SP is 0. -/
theorem Effect.mem_cases {i : Instr} {s t : State} (h : Effect i s t) :
    t.mem = s.mem ∨ s.sp ≠ 0#8 ∧ ∃ v, t.mem = s.mem.write s.sp v := by
  cases h with
  | add _ r _ s' arg hf ht hs =>
    rw [fetchOperand_state s s' arg hs]
    rcases addOperand_cases r arg s.advance with h | ⟨res, h⟩ <;> simp [h]
  | sub _ r _ s' arg hf ht hs =>
    rw [fetchOperand_state s s' arg hs]
    rcases subOperand_cases r arg s.advance with h | ⟨res, h⟩ <;> simp [h]
  | pushImmediate _ s' arg hs =>
    rw [fetchOperand_state s s' arg hs]
    exact (pushHandler_mem_cases _ s.advance).imp_right fun ⟨hsp, hm⟩ => ⟨hsp, _, hm⟩
  | pushRegister => exact (pushHandler_mem_cases _ s).imp_right fun ⟨hsp, hm⟩ => ⟨hsp, _, hm⟩
  | pop => exact .inl (popHandler_mem _ s)
  | halt | unimplemented => exact .inl rfl

theorem step_mem_cases (s t : State) (h : step s = .next t) :
    t.mem = s.mem ∨ s.sp ≠ 0#8 ∧ ∃ v, t.mem = s.mem.write s.sp v := by
  cases (step_eq_next_iff s t).mp h with
  | halted | empty | stray | reserved => exact .inl rfl
  | instr _ i hf eff => exact eff.mem_cases

/-! ### CC -/

/-- A meaning leaves CC or writes one of DEFAULT, ZERO, OVERFLOW. -/
theorem Effect.cc_cases {i : Instr} {s t : State} (h : Effect i s t) : t.cc = s.cc ∨ t.ccWritten := by
  by_cases hi : i.family = .add ∨ i.family = .sub
  · rcases h.arithmetic_cases hi with rfl | ⟨r, res, -, rfl⟩
    · exact .inr (.inr (.inr rfl))
    · exact .inr ((resultCC_cases res).elim (fun hz => .inr (.inl hz)) .inl)
  · exact .inl (h.cc_of_not_arithmetic (not_or.mp hi))

theorem step_cc_cases (s t : State) (h : step s = .next t) : t.cc = s.cc ∨ t.ccWritten := by
  cases (step_eq_next_iff s t).mp h with
  | halted | empty | stray | reserved => exact .inl rfl
  | instr _ i hf eff => exact eff.cc_cases

/-! ### The halt cause -/

/-- A meaning leaves RUN and HCAUSE, or halts with a cause. -/
theorem Effect.halt_cases {i : Instr} {s t : State} (h : Effect i s t) :
    (t.run = s.run ∧ t.hcause = s.hcause) ∨ (t.run = .halted ∧ t.hcause ≠ .none) := by
  rw [h.run_eq, h.hcause_eq]
  by_cases hh : i.family = .halt
  · simp [hh]
  · by_cases hu : i.family = .unimpl
    · simp [hu]
    · simp [hh, hu]

theorem step_halt_cases (s t : State) (h : step s = .next t) :
    (t.run = s.run ∧ t.hcause = s.hcause) ∨ (t.run = .halted ∧ t.hcause ≠ .none) := by
  cases (step_eq_next_iff s t).mp h with
  | halted | stray => exact .inl ⟨rfl, rfl⟩
  | empty | reserved => exact .inr ⟨rfl, by simp⟩
  | instr _ i hf eff => exact eff.halt_cases

/-! ### The obligations -/

/-- Settles O50. -/
theorem stepKeepsMemoryCanonical : Obligations.StepKeepsMemoryCanonical := by
  intro s t hwf h
  rcases step_mem_cases s t h with hm | ⟨-, v, hm⟩
  · rwa [hm]
  · rw [hm]
    exact Memory.write_wf s.mem s.sp v hwf

/-- Settles O43: a step that writes memory writes at SP, which is then not 0. -/
theorem cellZeroIsNeverWritten : Obligations.CellZeroIsNeverWritten := by
  intro s t hwf h
  rcases step_mem_cases s t h with hm | ⟨hsp, v, hm⟩
  · rw [State.load, hm, State.load]
  · rw [State.load, hm, Memory.read_write s.mem s.sp 0#8 v hwf, if_neg hsp.symm, State.load]

/-- Settles O39: CC is left or one of the three written values. -/
theorem negativeAndCarryAreNeverWritten : Obligations.NegativeAndCarryAreNeverWritten := by
  intro s t h hcc
  refine (step_cc_cases s t h).resolve_right fun written => ?_
  rcases hcc with hcc | hcc <;> simp [State.ccWritten, hcc] at written

/-- Settles O51: field by field, by what a step can do to memory, N, CC and the halt cause. -/
theorem stepKeepsInvariant : Obligations.StepKeepsInvariant := by
  intro s t inv h
  obtain ⟨hstream, hn, -⟩ := streamIsReadOnly s t h
  refine ⟨stepKeepsMemoryCanonical s t inv.memory h, ?_, ?_, ?_, ?_⟩
  · rw [cellZeroIsNeverWritten s t inv.memory h]
    exact inv.cellZero
  · rw [State.inBounds, hstream]
    exact hn.trans inv.bounds
  · rcases step_cc_cases s t h with hcc | written
    · rw [State.ccWritten, hcc]
      exact inv.flag
    · exact written
  · rcases step_halt_cases s t h with ⟨hrun, hcause⟩ | ⟨hrun, hcause⟩
    · rw [State.causeMatchesRun, hrun, hcause]
      exact inv.cause
    · simp [State.causeMatchesRun, hrun, hcause]

theorem constructed_inv (S : List Element) : (constructed S).Inv :=
  ⟨rfl, rfl, Nat.le_refl _, .inl rfl, iff_of_true rfl rfl⟩

/-- Settles O52: `State.reset` is the construction from the empty stream. -/
theorem invariantHoldsAfterConstruction : Obligations.InvariantHoldsAfterConstruction :=
  ⟨constructed_inv [], constructed_inv⟩

end Sys2Proof.Machine
end

section
/-! SUPPORT. Construction, the storage order and the host's reads (70_reset_and_hazards.md, 30_encoding.md section 4). -/

namespace Sys2Proof.Machine

theorem construct_fits (S : List Element) (h : S.length ≤ Config.lMax) : construct S = .next (constructed S) :=
  if_pos (decide_eq_true h)

theorem construct_too_long (S : List Element) (h : Config.lMax < S.length) : construct S = .refused .streamTooLong :=
  if_neg (by simpa [streamFits] using h)

theorem constructed_pending (S : List Element) : (constructed S).pending = S.reverse :=
  elementsAreConsumedFromTheTail.1 S

/-! ### The obligations -/

/-- Settles O53. -/
theorem constructionResetsEverything : Obligations.ConstructionResetsEverything := by
  refine fun S hS => ⟨_, construct_fits S hS, fun r => ?_, rfl, rfl, fun _ => rfl, rfl, rfl, rfl, rfl, rfl⟩
  cases r <;> rfl

/-- Settles O54. -/
theorem resetIsTheEmptyConstruction : Obligations.ResetIsTheEmptyConstruction :=
  ⟨construct_fits [] (Nat.zero_le _), step_of_empty State.reset rfl rfl⟩

/-- Settles O55: the last element heads the elements to come. -/
theorem firstFetchIsTheLastElement : Obligations.FirstFetchIsTheLastElement := fun S e =>
  State.fetches_of_pending _ e S.reverse rfl (Nat.le_refl _) (by rw [constructed_pending, List.reverse_concat])

/-- Settles O56: by the reversal of the list and of its indices. -/
theorem storageOrderIsReversed : Obligations.StorageOrderIsReversed := by
  intro E
  refine ⟨fun i hi => List.getElem?_reverse hi, ?_, fun n pos hn => ?_⟩
  · rw [constructed_pending, storedOrder, List.reverse_reverse]
  · rw [storedOrder, List.getElem?_reverse (by omega)]
    congr 1
    omega

/-- Settles O57: rule by rule, by the run state the host finds. -/
theorem hostInterfaceRules : Obligations.HostInterfaceRules := by
  refine ⟨construct_too_long, fun s S h => ?_, fun s S h => ?_, fun s h => ⟨outputs s, ?_, ?_⟩, fun s addr h => ?_,
    fun s addr h => ?_⟩
  · simp only [reconstruct, h]
  · simp only [reconstruct, h]
  · simp only [readOutputs, h]
  · exact ⟨rfl, rfl, rfl, rfl, rfl, rfl, rfl, rfl, rfl, rfl⟩
  · simp only [readMemory, h]
  · simp only [readOutputs, readMemory, h, and_self]

/-- Settles O58. -/
theorem outputCodes : Obligations.OutputCodes :=
  ⟨rfl, rfl, rfl⟩

end Sys2Proof.Machine
end
